-- ==== Sys2Proof/Word.lean ====
section
/-! DEFINITION. The word types of the block: 00_scope.md rules R8 and R9 (a byte is 8 bits, the block has no signed quantities). -/

namespace Sys2Proof

/-- A byte: one frame byte, one pixel sample, one byte of a BitRow (R8, R11). -/
abbrev Byte := BitVec 8

/-- A 16-bit unsigned value: the length field and the operand of Feed (R82, R85). -/
abbrev Half := BitVec 16

/-- A 32-bit unsigned value: image sizes, the device width, row numbers (R28, R43 to R45). -/
abbrev Word := BitVec 32

end Sys2Proof
end

