-- ==== Sys2Proof/Config.lean ====
section
/-! DEFINITION. What is fixed outside the run: the free value of the spec, and the shape of the configuration registers (10_state.md section 3).
The reset record itself is `Cfg.reset` in Decode.lean. -/

namespace Sys2Proof

/-- FREE VALUE (log 3). What an entry of BUF holds when no frame has written it since block reset number `epoch` (10_state.md rule R39, decision D48: unspecified). -/
opaque Config.bufPowerOn : (epoch : Nat) → (index : Nat) → Byte

/-- The two checksum algorithms of CFG.CHECKSUM_ALG: 0 = SUM8, 1 = CRC8 (R26). -/
inductive ChecksumAlg where
  | sum8
  | crc8
deriving DecidableEq, Repr

/-- The configuration registers, named fields of one record (R24 to R28). -/
structure Cfg where
  opcPrint        : Byte
  opcFeed         : Byte
  opcSetHeat      : Byte
  opcQueryStatus  : Byte
  opcReset        : Byte
  opcStatusReport : Byte
  term0           : Byte
  term1           : Byte
  checksumAlg     : ChecksumAlg
  maxPayload      : Half
  deviceWidth     : Word
deriving DecidableEq, Repr

end Sys2Proof
end

