-- ==== Sys2Proof/Syntax.lean ====
section
/-! DEFINITION. The operand types (00_scope.md rule R11), the instructions (one constructor per row of spec/opcode_table.json) and the port transactions that carry them (10_state.md rule R20). -/

namespace Sys2Proof

/-- The six frame kinds (R11). -/
inductive Kind where
  | print
  | feed
  | setHeat
  | queryStatus
  | reset
  | statusReport
deriving DecidableEq, Repr

/-- One printed dot line, 8 dots a byte (R11). Its length, ROW_BYTES, is checked by ENC (R121) and by DEC (R84). -/
abbrev BitRow := List Byte

/-- A command of the host (R11). -/
inductive Command where
  | print (rows : List BitRow)
  | feed (lines : Half)
  | setHeat (level : Byte)
  | queryStatus
  | reset
deriving DecidableEq, Repr

/-- A decoded status reply (R11). -/
structure StatusReport where
  paperPresent    : Bool
  overTemperature : Bool
  lowBattery      : Bool
  busy            : Bool
deriving DecidableEq, Repr

/-- The pixel formats: 0 = GRAY8 (1 channel), 1 = RGB888 (3 channels) (R43). -/
inductive PixelFormat where
  | gray8
  | rgb888
deriving DecidableEq, Repr

/-- The descriptor of a pixel buffer (R43). `base` is a host offset, a natural number (log 5). -/
structure ImageDesc where
  width  : Word
  height : Word
  format : PixelFormat
  base   : Nat
deriving DecidableEq, Repr

/-- The record given to CFG_LOAD: CHECKSUM_ALG is any natural number, MAX_PAYLOAD and DEVICE_WIDTH are 32-bit (R26, R250). -/
structure CfgRecord where
  opcPrint        : Byte
  opcFeed         : Byte
  opcSetHeat      : Byte
  opcQueryStatus  : Byte
  opcReset        : Byte
  opcStatusReport : Byte
  term0           : Byte
  term1           : Byte
  checksumAlg     : Nat
  maxPayload      : Word
  deviceWidth     : Word
deriving DecidableEq, Repr

/-- The fields of a frame as they stand on the wire after its opcode byte (R80).
Nothing says here that the frame is legal: a wrong length, checksum or terminator is what DEC answers with FRAME_CORRUPT (R94). -/
structure FrameFields where
  len      : Half
  payload  : List Byte
  checksum : Byte
  term0    : Byte
  term1    : Byte
deriving DecidableEq, Repr

/-- The instructions: one constructor per row of spec/opcode_table.json.
The first six are the frames of 30_encoding.md as DEC receives them (log 2); the others are the operations of the four units. -/
inductive Instr where
  | print (f : FrameFields)
  | feed (f : FrameFields)
  | setHeat (f : FrameFields)
  | queryStatus (f : FrameFields)
  | reset (f : FrameFields)
  | statusReport (f : FrameFields)
  | cfgLoad (record : CfgRecord)
  | decClear
  | enc (cmd : Command)
  | decByte (b : Byte)
  | rastStart (img : ImageDesc) (deviceWidth : Word) (dither : Bool)
  | rastNext
  | rastRestart
deriving DecidableEq, Repr

/-- A request on port RAST_CTL (R20). -/
inductive RastRequest where
  | start (img : ImageDesc) (deviceWidth : Word) (dither : Bool)
  | next
  | restart
deriving DecidableEq, Repr

/-- What the host puts on an input port (R20).
`rx` carries one byte or more: `DEC <hex bytes>` is the notation of R97 for one DEC_BYTE per byte, in order (log 2). -/
inductive Transaction where
  | cfgIn (record : CfgRecord)
  | encCmd (cmd : Command)
  | rx (first : Byte) (more : List Byte)
  | rxClear
  | rastCtl (request : RastRequest)
deriving DecidableEq, Repr

end Sys2Proof
end

