-- ==== Sys2Proof/WellFormed.lean ====
section
/-! DEFINITION. Which instruction terms stand for a pattern of the spec's encoding: a frame's payload has as many bytes as its length field says (30_encoding.md rules R80, R82).
The operands of the operations carry their ranges in their types (00_scope.md rule R11); a record or a command the block refuses is still an operand it takes (R121, R251). -/

namespace Sys2Proof

/-- The length field counts the payload bytes (R82). -/
def FrameFields.wf (f : FrameFields) : Bool :=
  f.payload.length == f.len.toNat

def Instr.wf : Instr → Bool
  | .print f => f.wf
  | .feed f => f.wf
  | .setHeat f => f.wf
  | .queryStatus f => f.wf
  | .reset f => f.wf
  | .statusReport f => f.wf
  | .cfgLoad _ => true
  | .decClear => true
  | .enc _ => true
  | .decByte _ => true
  | .rastStart _ _ _ => true
  | .rastNext => true
  | .rastRestart => true

end Sys2Proof
end

