-- ==== Sys2Proof/Decode.lean ====
section
/-! DEFINITION. Decoding and encoding: the opcode lookup (10_state.md rule R32), the frame format (30_encoding.md rules R80 to R83, R96), the port of each operation (10_state.md rule R20, 30_encoding.md rule R97).
`decodeFrame` is total on any bytes and rejects by name; `decode` reads one transaction; `encode` writes one. -/

namespace Sys2Proof

/-! ### The reset configuration and what is read from a configuration -/

/-- The configuration registers after reset (R24 to R28, R290). -/
def Cfg.reset : Cfg where
  opcPrint        := 0xA1
  opcFeed         := 0xA2
  opcSetHeat      := 0xA3
  opcQueryStatus  := 0xA4
  opcReset        := 0xA5
  opcStatusReport := 0xB1
  term0           := 0x0D
  term1           := 0x0A
  checksumAlg     := .sum8
  maxPayload      := 3072
  deviceWidth     := 384

/-- `ceil(a / b)` of R9. -/
def ceilDiv (a b : Nat) : Nat := (a + b - 1) / b

/-- ROW_BYTES (R29). -/
def Cfg.rowBytes (cfg : Cfg) : Nat := ceilDiv cfg.deviceWidth.toNat 8

/-- The opcode byte of a kind (R24, R32). -/
def opcodeOf (cfg : Cfg) : Kind → Byte
  | .print => cfg.opcPrint
  | .feed => cfg.opcFeed
  | .setHeat => cfg.opcSetHeat
  | .queryStatus => cfg.opcQueryStatus
  | .reset => cfg.opcReset
  | .statusReport => cfg.opcStatusReport

/-- The kind an opcode byte selects, `none` for a byte that is no header byte (R32). -/
def kindOf (cfg : Cfg) (b : Byte) : Option Kind :=
  if b = cfg.opcPrint then some .print
  else if b = cfg.opcFeed then some .feed
  else if b = cfg.opcSetHeat then some .setHeat
  else if b = cfg.opcQueryStatus then some .queryStatus
  else if b = cfg.opcReset then some .reset
  else if b = cfg.opcStatusReport then some .statusReport
  else none

/-- The six opcode registers, in the order of R24. -/
def Cfg.opcodes (cfg : Cfg) : List Byte :=
  [cfg.opcPrint, cfg.opcFeed, cfg.opcSetHeat, cfg.opcQueryStatus, cfg.opcReset, cfg.opcStatusReport]

/-! ### The 16-bit wire fields, little-endian -/

/-- A 16-bit field from its two wire bytes, low byte first (R62, R82). -/
def joinLE (lo hi : Byte) : Half := lo.setWidth 16 ||| (hi.setWidth 16 <<< 8)

/-- Bits [7:0] of a 16-bit field (R82). -/
def loByte (v : Half) : Byte := v.setWidth 8

/-- Bits [15:8] of a 16-bit field (R82). -/
def hiByte (v : Half) : Byte := (v >>> 8).setWidth 8

/-! ### Frames -/

/-- The bytes of a frame after its opcode byte, in the order of R80. -/
def FrameFields.tail (f : FrameFields) : List Byte :=
  loByte f.len :: hiByte f.len :: (f.payload ++ [f.checksum, f.term0, f.term1])

/-- The bytes of a frame (R80). -/
def frameBytes (cfg : Cfg) (k : Kind) (f : FrameFields) : List Byte :=
  opcodeOf cfg k :: f.tail

/-- The frame instruction of a kind (R83). -/
def frameInstr (k : Kind) (f : FrameFields) : Instr :=
  match k with
  | .print => .print f
  | .feed => .feed f
  | .setHeat => .setHeat f
  | .queryStatus => .queryStatus f
  | .reset => .reset f
  | .statusReport => .statusReport f

/-- Why bytes do not begin with a frame. -/
inductive FrameReject where
  /-- There is no byte. -/
  | noBytes
  /-- The first byte is no header byte under the configuration (R93). -/
  | notHeader (b : Byte)
  /-- The bytes end before the frame that the header byte and the length field announce (R96). -/
  | truncated
deriving DecidableEq, Repr

/-- Reads one frame from the front of a byte list, and what follows it (R80, R83, R96).
The length is known after the third byte, so the frame ends at byte 5 + L. -/
def decodeFrame (cfg : Cfg) : List Byte → Except FrameReject (Instr × List Byte)
  | [] => .error .noBytes
  | op :: rest =>
    match kindOf cfg op with
    | none => .error (.notHeader op)
    | some k =>
      match rest with
      | lo :: hi :: body =>
        let len := joinLE lo hi
        match body.drop len.toNat with
        | c :: t0 :: t1 :: after =>
          .ok (frameInstr k
            { len := len, payload := body.take len.toNat, checksum := c, term0 := t0, term1 := t1 }, after)
        | _ => .error .truncated
      | _ => .error .truncated

/-! ### Transactions -/

/-- The RX transaction that carries a byte list; none carries no byte. -/
def rxOf : List Byte → Option Transaction
  | [] => none
  | b :: bs => some (.rx b bs)

/-- The instruction at the front of RX bytes, and the bytes after it: a whole frame where one stands there, else DEC_BYTE of the first byte (R160, log 2). -/
def decodeRx (cfg : Cfg) (b : Byte) (bs : List Byte) : Instr × List Byte :=
  match decodeFrame cfg (b :: bs) with
  | .ok r => r
  | .error _ => (.decByte b, bs)

/-- The instruction a transaction carries, and what of the transaction is left (R20). -/
def decode (cfg : Cfg) : Transaction → Instr × Option Transaction
  | .cfgIn r => (.cfgLoad r, none)
  | .encCmd c => (.enc c, none)
  | .rx b bs => ((decodeRx cfg b bs).1, rxOf (decodeRx cfg b bs).2)
  | .rxClear => (.decClear, none)
  | .rastCtl (.start img w d) => (.rastStart img w d, none)
  | .rastCtl .next => (.rastNext, none)
  | .rastCtl .restart => (.rastRestart, none)

/-- The transaction that carries an instruction (R20, R80). -/
def encode (cfg : Cfg) : Instr → Transaction
  | .print f => .rx (opcodeOf cfg .print) f.tail
  | .feed f => .rx (opcodeOf cfg .feed) f.tail
  | .setHeat f => .rx (opcodeOf cfg .setHeat) f.tail
  | .queryStatus f => .rx (opcodeOf cfg .queryStatus) f.tail
  | .reset f => .rx (opcodeOf cfg .reset) f.tail
  | .statusReport f => .rx (opcodeOf cfg .statusReport) f.tail
  | .cfgLoad r => .cfgIn r
  | .decClear => .rxClear
  | .enc c => .encCmd c
  | .decByte b => .rx b []
  | .rastStart img w d => .rastCtl (.start img w d)
  | .rastNext => .rastCtl .next
  | .rastRestart => .rastCtl .restart

/-! ### Words numbered as the opcode table numbers them (log 14) -/

/-- The first `n` bytes of `w`, byte 0 in bits 7..0. -/
def bytesOfWord (n w : Nat) : List Byte :=
  (List.range n).map fun i => BitVec.ofNat 8 (w >>> (8 * i))

/-- The bytes of a table word, filled with zero bytes up to the end of the frame that its length field announces: 6 + L bytes (R81). -/
def tableBytes (nbits w : Nat) : List Byte :=
  let given := bytesOfWord (nbits / 8) w
  let len := joinLE (given.getD 1 0) (given.getD 2 0)
  given ++ List.replicate (6 + len.toNat - given.length) 0

/-- The instruction the frame decoder reads from a table word under the reset configuration (R83). -/
def decodeTableWord (nbits w : Nat) : Option Instr :=
  match decodeFrame Cfg.reset (tableBytes nbits w) with
  | .ok (i, _) => some i
  | .error _ => none

end Sys2Proof
end

