-- ==== Sys2Proof/Machine/State.lean ====
section
/-! DEFINITION. The state of the block (10_state.md), its outputs, its faults and refusals, and the state after reset (70_reset_and_hazards.md rule R290). -/

namespace Sys2Proof.Machine

/-- An error event `Error(code, info)`: the constructor is the code, its arguments the info (60_exceptions.md rules R260, R261). -/
inductive ErrorEvent where
  /-- Code 1, raised by RAST_START; info (width, height, device_width) (R262). -/
  | invalidImage (width height deviceWidth : Word)
  /-- Code 2, raised by DEC_BYTE; no info (R263). -/
  | frameCorrupt
  /-- Code 3, raised by ENC; info the kind (R264). -/
  | encodeInvalid (kind : Kind)
  /-- Code 4, raised by RAST_NEXT and RAST_RESTART; no info (R265). -/
  | rastIdle
  /-- Code 5, raised by CFG_LOAD; info the number of the first failing check (R266). -/
  | configInvalid (check : Nat)
deriving DecidableEq, Repr

/-- An item of DEC_OUT (00_scope.md rule R11). -/
inductive DecEvent where
  | frame (cmd : Command)
  | status (report : StatusReport)
  | error (e : ErrorEvent)
deriving DecidableEq, Repr

/-- An item of RAST_OUT (00_scope.md rule R11); `endOfRows` is `End`. -/
inductive RastEvent where
  | row (bytes : BitRow)
  | endOfRows
  | error (e : ErrorEvent)
deriving DecidableEq, Repr

/-- The seven decoder states (R34). -/
inductive DecState where
  | awaitHeader
  | awaitLength0
  | awaitLength1
  | awaitPayload
  | awaitChecksum
  | awaitTerminator0
  | awaitTerminator1
deriving DecidableEq, Repr

/-- A memory: bytes by address, in the canonical form `Memory.wf` of Ops.lean. An address it does not list holds no byte of it. -/
abbrev Memory := List Host.Cell

/-- The decoder's registers and its payload buffer (R34 to R39).
`buf` lists the entries written since the last block reset; `bufEpoch`, the model's own, counts block resets and indexes the free value of the other entries (log 3). -/
structure Dec where
  state    : DecState
  kind     : Kind
  lenLo    : Byte
  len      : Half
  count    : Half
  acc      : Byte
  buf      : Memory
  bufEpoch : Nat
deriving DecidableEq, Repr

/-- RAST.state (R42). -/
inductive RastState where
  | idle
  | active
deriving DecidableEq, Repr

/-- The rasterizer's registers (R42 to R45). -/
structure Rast where
  state  : RastState
  img    : ImageDesc
  W      : Word
  H      : Word
  dither : Bool
  y      : Word
deriving DecidableEq, Repr

/-- A pending input of the host (60_exceptions.md rule R274, log 1). -/
inductive Input where
  /-- A transaction on an input port (R20). -/
  | op (t : Transaction)
  /-- Block reset (70_reset_and_hazards.md rule R290). -/
  | blockReset
  /-- The host writes one byte of its own memory (20_memory.md rules R60, R70). -/
  | hostWrite (addr : Nat) (b : Byte)
deriving DecidableEq, Repr

/-- The block's state (CFG, DEC, RAST) with the output streams emitted so far (R21), the host's memory it reads, and the host inputs still pending, in the order the host issues them (R71). -/
structure State where
  cfg       : Cfg
  dec       : Dec
  rast      : Rast
  tx        : List Byte
  decOut    : List DecEvent
  rastOut   : List RastEvent
  cfgStatus : List ErrorEvent
  encStatus : List ErrorEvent
  mem       : Memory
  inputs    : List Input
deriving DecidableEq, Repr

/-- Why the machine stops: the two runs that the spec calls stuck. -/
inductive Fault where
  /-- Raised by RAST_NEXT when it reads a host offset that holds no byte of the host's buffer (20_memory.md rule R68, U13: stuck). Safe (log 4). -/
  | pixelOutsideBuffer (addr : Nat)
  /-- Raised when the host writes a byte of the bound buffer while RAST is ACTIVE (20_memory.md rule R70, U14: stuck). Safe (log 6). -/
  | boundBufferWritten (addr : Nat)
deriving DecidableEq, Repr

/-- Why an instruction has no meaning. -/
inductive Refusal where
  /-- Raised by exec's arm of an instruction that has no meaning yet; no arm is left so. Safe. -/
  | notModelled (mnemonic : String)
deriving DecidableEq, Repr

/-- The decoder after reset: AwaitHeader, registers 0, no entry of BUF written (R290). -/
def Dec.reset (epoch : Nat) : Dec where
  state    := .awaitHeader
  kind     := .print
  lenLo    := 0
  len      := 0
  count    := 0
  acc      := 0
  buf      := []
  bufEpoch := epoch

/-- The rasterizer after reset: IDLE, registers 0 (R290). -/
def Rast.reset : Rast where
  state  := .idle
  img    := { width := 0, height := 0, format := .gray8, base := 0 }
  W      := 0
  H      := 0
  dither := false
  y      := 0

/-- The machine right after reset: the register values of R290, no output pending (R291), no host memory listed, no input pending (logs 1, 4). -/
def State.reset : State where
  cfg       := Cfg.reset
  dec       := Dec.reset 0
  rast      := Rast.reset
  tx        := []
  decOut    := []
  rastOut   := []
  cfgStatus := []
  encStatus := []
  mem       := []
  inputs    := []

end Sys2Proof.Machine
end

