-- ==== Sys2Proof/Machine/Ops.lean ====
section
/-! DEFINITION. The shared operations: memory cells, the payload buffer BUF, appending to an output stream, taking an error (60_exceptions.md rules R260, R261, R270), block reset (R290), the host's write of its memory. -/

namespace Sys2Proof.Machine

/-! ### Memory cells -/

/-- The canonical form: addresses strictly rising. No entry equals what an unlisted address reads as, since that is no value. -/
abbrev Memory.wf (m : Memory) : Prop := m.Pairwise fun x y => x.1 < y.1

/-- The byte at an address, `none` where none is listed. -/
def Memory.read? : Memory → Nat → Option Byte
  | [], _ => none
  | (k, v) :: rest, a => if k = a then some v else Memory.read? rest a

/-- Writes one byte and keeps the canonical form. -/
def Memory.write : Memory → Nat → Byte → Memory
  | [], a, b => [(a, b)]
  | (k, v) :: rest, a, b =>
    if a < k then (a, b) :: (k, v) :: rest
    else if a = k then (a, b) :: rest
    else (k, v) :: Memory.write rest a b

/-! ### BUF (10_state.md rule R39) -/

/-- How many entries BUF has: indices 0..65534 (R39). -/
def bufSize : Nat := 65535

/-- `BUF[i]`: the byte written there since the last block reset, else the free value (R39, log 3). -/
def bufRead (d : Dec) (i : Nat) : Byte :=
  (d.buf.read? i).getD (Config.bufPowerOn d.bufEpoch i)

/-- `BUF[i] <- b`. An index that BUF does not have is never reached (R164); there nothing is written (log 8). -/
def bufWrite (d : Dec) (i : Nat) (b : Byte) : Dec :=
  if i < bufSize then { d with buf := d.buf.write i b } else d

/-- `BUF[0 .. DEC.len)` (R167). -/
def bufPayload (d : Dec) : List Byte :=
  (List.range d.len.toNat).map (bufRead d)

/-! ### One update for each part of the state -/

def State.withCfg (s : State) (c : Cfg) : State := { s with cfg := c }
def State.withDec (s : State) (d : Dec) : State := { s with dec := d }
def State.withRast (s : State) (r : Rast) : State := { s with rast := r }
def State.withMem (s : State) (m : Memory) : State := { s with mem := m }
def State.withInputs (s : State) (l : List Input) : State := { s with inputs := l }

/-- `emit(TX, ...)`: one atomic append (R10, R67). -/
def State.emitTx (s : State) (bytes : List Byte) : State := { s with tx := s.tx ++ bytes }

/-- Appends events to DEC_OUT (R10, R160). -/
def State.emitDec (s : State) (evs : List DecEvent) : State := { s with decOut := s.decOut ++ evs }

/-- `emit(RAST_OUT, ...)` (R10, R202). -/
def State.emitRast (s : State) (ev : RastEvent) : State := { s with rastOut := s.rastOut ++ [ev] }

/-- Appends an error event to CFG_STATUS (R260). -/
def State.emitCfgStatus (s : State) (e : ErrorEvent) : State := { s with cfgStatus := s.cfgStatus ++ [e] }

/-- Appends an error event to ENC_STATUS (R260). -/
def State.emitEncStatus (s : State) (e : ErrorEvent) : State := { s with encStatus := s.encStatus ++ [e] }

/-! ### Taking an error -/

/-- The numeric code of an error (R261). -/
def ErrorEvent.code : ErrorEvent → Nat
  | .invalidImage _ _ _ => 1
  | .frameCorrupt => 2
  | .encodeInvalid _ => 3
  | .rastIdle => 4
  | .configInvalid _ => 5

/-- The Corrupt action on the decoder: the event, and AwaitHeader; no other register changes (R169). -/
def corrupt (d : Dec) : Dec × Option DecEvent :=
  ({ d with state := .awaitHeader }, some (.error .frameCorrupt))

/-- Lets the decoder take a result: its registers, and at most one event on DEC_OUT (R160). -/
def takeDecResult (s : State) (r : Dec × Option DecEvent) : State :=
  (s.withDec r.1).emitDec r.2.toList

/-- `raise E(info)`: the event goes to the port of the unit that raises it (R260), then the state update of R261's table happens.
Nothing is saved and there is no return from it (R270, R271). -/
def raiseError (e : ErrorEvent) (s : State) : State :=
  match e with
  | .invalidImage _ _ _ => (s.emitRast (.error e)).withRast { s.rast with state := .idle }
  | .frameCorrupt => takeDecResult s (corrupt s.dec)
  | .encodeInvalid _ => s.emitEncStatus e
  | .rastIdle => s.emitRast (.error e)
  | .configInvalid _ => s.emitCfgStatus e

/-! ### Block reset and the host's own moves -/

/-- Block reset: every register takes its reset value, nothing is emitted, and what was emitted stays with the host (R290).
The host's memory and the host's pending inputs are not the block's (log 10). -/
def blockReset (s : State) : State :=
  { s with cfg := Cfg.reset, dec := Dec.reset (s.dec.bufEpoch + 1), rast := Rast.reset }

/-- The number of channels C of a pixel format (R60). -/
def PixelFormat.channels : PixelFormat → Nat
  | .gray8 => 1
  | .rgb888 => 3

/-- How many bytes a pixel buffer has: width x height x C (R60). -/
def imageBytes (img : ImageDesc) : Nat :=
  img.width.toNat * img.height.toNat * PixelFormat.channels img.format

/-- A host offset lies in the buffer bound by the running conversion (R68, R70). -/
def inBoundBuffer (r : Rast) (a : Nat) : Bool :=
  r.state == .active && (r.img.base ≤ a && a < r.img.base + imageBytes r.img)

/-- The host writes one byte of its memory: never of the bound buffer (R70, U14). -/
def hostWrite (a : Nat) (b : Byte) (s : State) : Host.Outcome State Fault Refusal :=
  if inBoundBuffer s.rast a then .fault (.boundBufferWritten a)
  else .next (s.withMem (s.mem.write a b))

end Sys2Proof.Machine
end

