-- ==== Sys2Proof/Machine/Flags.lean ====
section
/-! DEFINITION. The computed check values and the status bits. The block has no condition codes and no status flags (10_state.md rule R23); what it computes in their place is the frame checksum (30_encoding.md rules R89 to R91) and the bits of the status byte (R88, 40_commands.md rule R128). -/

namespace Sys2Proof.Machine

/-! ### Checksums -/

/-- `sumUpdate`: addition modulo 256 (R89). -/
def sumUpdate (acc b : Byte) : Byte := acc + b

/-- One of the eight shifts of `crcUpdate` (R90). -/
def crcShift (a : Byte) : Byte :=
  if a.getLsbD 7 then (a <<< 1) ^^^ 0x07 else a <<< 1

/-- `n` shifts. -/
def crcShifts : Nat → Byte → Byte
  | 0, a => a
  | n + 1, a => crcShifts n (crcShift a)

/-- `crcUpdate` (R90). -/
def crcUpdate (acc b : Byte) : Byte := crcShifts 8 (acc ^^^ b)

/-- `ckInit` of both algorithms (R89 to R91). -/
def ckInit : Byte := 0

/-- `ckUpdate` as CFG.CHECKSUM_ALG selects (R91). -/
def ckUpdate (cfg : Cfg) (acc b : Byte) : Byte :=
  match cfg.checksumAlg with
  | .sum8 => sumUpdate acc b
  | .crc8 => crcUpdate acc b

/-- `ckFinal` of both algorithms (R89 to R91). -/
def ckFinal (acc : Byte) : Byte := acc

/-- `ck(d)`: the fold over the bytes in wire order (R91). -/
def ck (cfg : Cfg) (d : List Byte) : Byte := ckFinal (d.foldl (ckUpdate cfg) ckInit)

/-! ### The status byte -/

/-- The report of a status byte; bits 7:4 are ignored (R88). -/
def statusOf (s : Byte) : StatusReport where
  paperPresent    := !s.getLsbD 0
  overTemperature := s.getLsbD 1
  lowBattery      := s.getLsbD 2
  busy            := s.getLsbD 3

/-- The status byte of a report: bits 3:0 by R88, the reserved bits 7:4 written as 0 (R88, D47, U4). -/
def statusByte (r : StatusReport) : Byte :=
  (if r.paperPresent then 0 else 0x01) ||| (if r.overTemperature then 0x02 else 0)
    ||| (if r.lowBattery then 0x04 else 0) ||| (if r.busy then 0x08 else 0)

/-- A report is faulted when paper is out or the head is over temperature (R128). -/
def StatusReport.faulted (r : StatusReport) : Bool := !r.paperPresent || r.overTemperature

end Sys2Proof.Machine
end

