-- ==== Sys2Proof/Machine/Operands.lean ====
section
/-! DEFINITION. Every operand form: payload shapes and payload fields (30_encoding.md rules R84 to R88), the validity of a command (40_commands.md rule R121) and of a configuration record (10_state.md rule R30), pixel addresses and pixel reads (20_memory.md rules R61, R68), the Bayer ROM (10_state.md rule R46). -/

namespace Sys2Proof.Machine

/-! ### Payloads -/

/-- `shapeOk(kind, L)` (R84). -/
def shapeOk (cfg : Cfg) (k : Kind) (L : Nat) : Bool :=
  match k with
  | .print => 1 ≤ L && L % cfg.rowBytes == 0 && L ≤ cfg.maxPayload.toNat
  | .feed => L == 2
  | .setHeat => L == 1
  | .queryStatus => L == 0
  | .reset => L == 0
  | .statusReport => L == 1

/-- The rows of a PRINT payload: `|p| div ROW_BYTES` rows of ROW_BYTES bytes, every bit unchanged (R87). -/
def rowsOf (cfg : Cfg) (p : List Byte) : List BitRow :=
  (List.range (p.length / cfg.rowBytes)).map fun i => (p.drop (i * cfg.rowBytes)).take cfg.rowBytes

/-- `p[i]` of a payload whose shape is known to hold; a byte it does not have is never read (R168, log 8). -/
def payloadByte (p : List Byte) (i : Nat) : Byte := p.getD i 0

/-- `build(kind, p)`: the event of a checked payload (R168). -/
def build (cfg : Cfg) (k : Kind) (p : List Byte) : DecEvent :=
  match k with
  | .print => .frame (.print (rowsOf cfg p))
  | .feed => .frame (.feed (joinLE (payloadByte p 0) (payloadByte p 1)))
  | .setHeat => .frame (.setHeat (payloadByte p 0))
  | .queryStatus => .frame .queryStatus
  | .reset => .frame .reset
  | .statusReport => .status (statusOf (payloadByte p 0))

/-- The kind of a command (R120). -/
def commandKind : Command → Kind
  | .print _ => .print
  | .feed _ => .feed
  | .setHeat _ => .setHeat
  | .queryStatus => .queryStatus
  | .reset => .reset

/-- The payload of a command (R120, R85 to R87). -/
def commandPayload : Command → List Byte
  | .print rows => rows.flatten
  | .feed n => [loByte n, hiByte n]
  | .setHeat l => [l]
  | .queryStatus => []
  | .reset => []

/-- `encValid(cmd)` (R121). The product is not bounded before it is compared (R130). -/
def encValid (cfg : Cfg) : Command → Bool
  | .print rows =>
    1 ≤ rows.length && rows.all (fun r => r.length == cfg.rowBytes)
      && rows.length * cfg.rowBytes ≤ cfg.maxPayload.toNat
  | .feed _ => true
  | .setHeat _ => true
  | .queryStatus => true
  | .reset => true

/-- The frame of a kind and a payload: header, payload, checksum, terminator (R80, R120). -/
def frameOf (cfg : Cfg) (k : Kind) (p : List Byte) : List Byte :=
  let hdr := [opcodeOf cfg k, BitVec.ofNat 8 (p.length % 256), BitVec.ofNat 8 (p.length / 256)]
  hdr ++ p ++ [ck cfg (hdr ++ p), cfg.term0, cfg.term1]

/-- `statusFrame(s)`: what a well-formed reply of the printer is; no operation of the block (R127).
It carries the byte `s` it is given, all eight bits, as R127's formula and vector S-8 do; `replyFrame` writes bits 7:4 as 0, as decision D47 and U4 say (log 16). -/
def statusFrame (cfg : Cfg) (s : Byte) : List Byte := frameOf cfg .statusReport [s]

/-- The reply that carries a report, its reserved bits 7:4 written as 0 (R127 with D47 and U4, log 16). -/
def replyFrame (cfg : Cfg) (r : StatusReport) : List Byte := statusFrame cfg (statusByte r)

/-! ### Configuration records -/

def CfgRecord.opcodes (r : CfgRecord) : List Byte :=
  [r.opcPrint, r.opcFeed, r.opcSetHeat, r.opcQueryStatus, r.opcReset, r.opcStatusReport]

/-- The number of the first check of R30 that fails, `none` for a valid record (R30, R251). -/
def firstFailingCheck (r : CfgRecord) : Option Nat :=
  if ¬ (CfgRecord.opcodes r).Nodup then some 1
  else if ¬ (r.checksumAlg = 0 ∨ r.checksumAlg = 1) then some 2
  else if ¬ (1 ≤ r.deviceWidth.toNat) then some 3
  else if ¬ (max 2 (ceilDiv r.deviceWidth.toNat 8) ≤ r.maxPayload.toNat ∧ r.maxPayload.toNat ≤ 65535) then some 4
  else none

/-- The registers a valid record is loaded into, all at once (R250). -/
def cfgOf (r : CfgRecord) : Cfg where
  opcPrint        := r.opcPrint
  opcFeed         := r.opcFeed
  opcSetHeat      := r.opcSetHeat
  opcQueryStatus  := r.opcQueryStatus
  opcReset        := r.opcReset
  opcStatusReport := r.opcStatusReport
  term0           := r.term0
  term1           := r.term1
  checksumAlg     := if r.checksumAlg = 0 then .sum8 else .crc8
  maxPayload      := r.maxPayload.setWidth 16
  deviceWidth     := r.deviceWidth

/-- The record that names the registers' own values. -/
def recordOf (c : Cfg) : CfgRecord where
  opcPrint        := c.opcPrint
  opcFeed         := c.opcFeed
  opcSetHeat      := c.opcSetHeat
  opcQueryStatus  := c.opcQueryStatus
  opcReset        := c.opcReset
  opcStatusReport := c.opcStatusReport
  term0           := c.term0
  term1           := c.term1
  checksumAlg     := match c.checksumAlg with
    | .sum8 => 0
    | .crc8 => 1
  maxPayload      := c.maxPayload.setWidth 32
  deviceWidth     := c.deviceWidth

/-! ### The pixel buffer and the Bayer ROM -/

/-- Runs `f` on `x, x+1, ..., x+n-1`, stopping at the first fault. -/
def collect {α : Type} (f : Nat → Except Fault α) : Nat → Nat → Except Fault (List α)
  | _, 0 => .ok []
  | x, n + 1 =>
    match f x with
    | .error e => .error e
    | .ok v =>
      match collect f (x + 1) n with
      | .error e => .error e
      | .ok vs => .ok (v :: vs)

/-- One byte of the host's buffer; an offset without a byte is stuck (R68). -/
def memByte (m : Memory) (a : Nat) : Except Fault Byte :=
  match m.read? a with
  | some b => .ok b
  | none => .error (.pixelOutsideBuffer a)

/-- `MemRead(addr, n)` (R10, R68). -/
def memRead (m : Memory) (addr n : Nat) : Except Fault (List Byte) := collect (memByte m) addr n

/-- `pixAddr(sx, sy, c)` (R61). -/
def pixAddr (img : ImageDesc) (sx sy c : Nat) : Nat :=
  img.base + (sy * img.width.toNat + sx) * PixelFormat.channels img.format + c

/-- BAYER, the 4 x 4 ROM (R46). -/
def bayerRom : List (List Nat) :=
  [[0, 8, 2, 10], [12, 4, 14, 6], [3, 11, 1, 9], [15, 7, 13, 5]]

/-- `BAYER[r][c]` (R46). -/
def bayer (r c : Nat) : Nat := (bayerRom.getD r []).getD c 0

end Sys2Proof.Machine
end

