-- ==== Sys2Proof/Machine/Control.lean ====
section
/-! DEFINITION. The control operations (43_control.md rules R250 to R252). -/

namespace Sys2Proof.Machine

/-- CFG_LOAD(rec): every field at once and DEC to AwaitHeader, or CONFIG_INVALID and no change (R250, R251). -/
def execCfgLoad (record : CfgRecord) (s : State) : Host.Outcome State Fault Refusal :=
  match firstFailingCheck record with
  | some n => .next (raiseError (.configInvalid n) s)
  | none => .next ((s.withCfg (cfgOf record)).withDec { s.dec with state := .awaitHeader })

/-- DEC_CLEAR: DEC to AwaitHeader, no event (R252). -/
def execDecClear (s : State) : Host.Outcome State Fault Refusal :=
  .next (s.withDec { s.dec with state := .awaitHeader })

end Sys2Proof.Machine
end

