-- ==== Sys2Proof/Machine/Encoder.lean ====
section
/-! DEFINITION. The frame encoder (40_commands.md rules R120, R121). -/

namespace Sys2Proof.Machine

/-- ENC(cmd): one whole frame on TX, or ENCODE_INVALID and nothing on TX (R120, R264). -/
def execEnc (cmd : Command) (s : State) : Host.Outcome State Fault Refusal :=
  if encValid s.cfg cmd then .next (s.emitTx (frameOf s.cfg (commandKind cmd) (commandPayload cmd)))
  else .next (raiseError (.encodeInvalid (commandKind cmd)) s)

end Sys2Proof.Machine
end

