-- ==== Sys2Proof/Machine/Decoder.lean ====
section
/-! DEFINITION. The streaming frame decoder (41_decoder.md): `decStep`, one arm per decoder state, the meaning of DEC_BYTE, and the bytes of a whole frame. -/

namespace Sys2Proof.Machine

/-- One byte into the decoder (R160 to R169): the decoder's registers after it, and at most one event. -/
def decStep (cfg : Cfg) (d : Dec) (b : Byte) : Dec × Option DecEvent :=
  match d.state with
  | .awaitHeader =>                                          -- R161
    match kindOf cfg b with
    | none => (d, none)
    | some k => ({ d with kind := k, acc := ckUpdate cfg ckInit b, state := .awaitLength0 }, none)
  | .awaitLength0 =>                                         -- R162
    ({ d with lenLo := b, acc := ckUpdate cfg d.acc b, state := .awaitLength1 }, none)
  | .awaitLength1 =>                                         -- R163
    let L := joinLE d.lenLo b
    let d := { d with acc := ckUpdate cfg d.acc b }
    if cfg.maxPayload.toNat < L.toNat ∨ shapeOk cfg d.kind L.toNat = false then corrupt d
    else if L = 0 then ({ d with len := 0, state := .awaitChecksum }, none)
    else ({ d with len := L, count := 0, state := .awaitPayload }, none)
  | .awaitPayload =>                                         -- R164
    let d := { bufWrite d d.count.toNat b with acc := ckUpdate cfg d.acc b, count := d.count + 1 }
    if d.count = d.len then ({ d with state := .awaitChecksum }, none) else (d, none)
  | .awaitChecksum =>                                        -- R165
    if b ≠ ckFinal d.acc then corrupt d else ({ d with state := .awaitTerminator0 }, none)
  | .awaitTerminator0 =>                                     -- R166
    if b ≠ cfg.term0 then corrupt d else ({ d with state := .awaitTerminator1 }, none)
  | .awaitTerminator1 =>                                     -- R167
    if b ≠ cfg.term1 then corrupt d
    else ({ d with state := .awaitHeader }, some (build cfg d.kind (bufPayload d)))

/-- The effect of one received byte on the state (R160). -/
def receiveByte (b : Byte) (s : State) : State := takeDecResult s (decStep s.cfg s.dec b)

/-- One DEC_BYTE per byte, in order (R97, R174). -/
def receiveBytes : List Byte → State → State
  | [], s => s
  | b :: bs, s => receiveBytes bs (receiveByte b s)

/-- DEC_BYTE(b) (R160). -/
def execDecByte (b : Byte) (s : State) : Host.Outcome State Fault Refusal := .next (receiveByte b s)

end Sys2Proof.Machine
end

