-- ==== Sys2Proof/Machine/Frames.lean ====
section
/-! DEFINITION. The six frame kinds as DEC receives them (40_commands.md rules R122 to R127): the bytes of the frame, one DEC_BYTE each, in order (log 2). -/

namespace Sys2Proof.Machine

/-- A frame arrives: its bytes, in wire order (R80, R97). -/
def receiveFrame (k : Kind) (f : FrameFields) (s : State) : Host.Outcome State Fault Refusal :=
  .next (receiveBytes (frameBytes s.cfg k f) s)

/-- PRINT (R122). -/
def execPrint (f : FrameFields) (s : State) : Host.Outcome State Fault Refusal := receiveFrame .print f s

/-- FEED (R123). -/
def execFeed (f : FrameFields) (s : State) : Host.Outcome State Fault Refusal := receiveFrame .feed f s

/-- SET_HEAT (R124). -/
def execSetHeat (f : FrameFields) (s : State) : Host.Outcome State Fault Refusal := receiveFrame .setHeat f s

/-- QUERY_STATUS (R125). -/
def execQueryStatus (f : FrameFields) (s : State) : Host.Outcome State Fault Refusal := receiveFrame .queryStatus f s

/-- RESET, the printer command; it does not reset the block (R126). -/
def execReset (f : FrameFields) (s : State) : Host.Outcome State Fault Refusal := receiveFrame .reset f s

/-- STATUS_REPORT (R127). -/
def execStatusReport (f : FrameFields) (s : State) : Host.Outcome State Fault Refusal := receiveFrame .statusReport f s

end Sys2Proof.Machine
end

