-- ==== Sys2Proof/Machine/Rasterizer.lean ====
section
/-! DEFINITION. The rasterizer (42_rasterizer.md): the per-dot pipeline, and RAST_START, RAST_NEXT, RAST_RESTART. All arithmetic is on natural numbers (R213). -/

namespace Sys2Proof.Machine

/-- `outHeight(width, height, W)` (R201). -/
def outHeight (width height W : Nat) : Nat := max 1 ((height * W) / width)

/-- `srcCol(x)` (R203). -/
def srcCol (r : Rast) (x : Nat) : Nat := (x * r.img.width.toNat) / r.W.toNat

/-- `srcRow(y)` (R203). -/
def srcRow (r : Rast) (y : Nat) : Nat := (y * r.img.height.toNat) / r.H.toNat

/-- The luminance of one pixel's bytes (R204). -/
def luminance (fmt : PixelFormat) (p : List Byte) : Nat :=
  match fmt with
  | .gray8 => (p.getD 0 0).toNat
  | .rgb888 => (77 * (p.getD 0 0).toNat + 150 * (p.getD 1 0).toNat + 29 * (p.getD 2 0).toNat) / 256

/-- `threshold(x, y)`: the Bayer cell of the output coordinates, or 128 with dithering disabled (R205). -/
def threshold (dither : Bool) (x y : Nat) : Nat :=
  if dither then 16 * bayer (y % 4) (x % 4) + 8 else 128

/-- `dot(Lum, t)`: true is a fired, black dot (R206). -/
def dot (lum t : Nat) : Bool := decide (lum < t)

/-- The dot at output column x of row y (R202, R203 to R206). -/
def dotAt (m : Memory) (r : Rast) (y x : Nat) : Except Fault Bool :=
  match memRead m (pixAddr r.img (srcCol r x) (srcRow r y) 0) (PixelFormat.channels r.img.format) with
  | .error e => .error e
  | .ok p => .ok (dot (luminance r.img.format p) (threshold r.dither x y))

/-- Byte j of a packed row: dot 8 j + k goes to bit 7 - k, and past the last dot the bits are 0 (R207, R208). -/
def packByte (dots : List Bool) (j : Nat) : Byte :=
  (List.range 8).foldl (fun acc k => if dots.getD (8 * j + k) false then acc ||| ((1 : Byte) <<< (7 - k)) else acc) 0

/-- A packed row of `ceil(W / 8)` bytes (R207, R208). -/
def packRow (W : Nat) (dots : List Bool) : BitRow := (List.range (ceilDiv W 8)).map (packByte dots)

/-- Row y of the running conversion (R202). -/
def rastRow (m : Memory) (r : Rast) (y : Nat) : Except Fault BitRow :=
  match collect (dotAt m r y) 0 r.W.toNat with
  | .error e => .error e
  | .ok dots => .ok (packRow r.W.toNat dots)

/-- RAST_START(img, device_width, dither) (R200). -/
def execRastStart (img : ImageDesc) (deviceWidth : Word) (dither : Bool) (s : State) : Host.Outcome State Fault Refusal :=
  if img.width = 0 ∨ img.height = 0 ∨ deviceWidth = 0 then
    .next (raiseError (.invalidImage img.width img.height deviceWidth) s)
  else
    let H := outHeight img.width.toNat img.height.toNat deviceWidth.toNat
    if 2 ^ 32 ≤ H then .next (raiseError (.invalidImage img.width img.height deviceWidth) s)
    else .next (s.withRast
      { state := .active, img := img, W := deviceWidth, H := BitVec.ofNat 32 H, dither := dither, y := 0 })

/-- RAST_NEXT: RAST_IDLE, or End, or the next row (R202). -/
def execRastNext (s : State) : Host.Outcome State Fault Refusal :=
  match s.rast.state with
  | .idle => .next (raiseError .rastIdle s)
  | .active =>
    if s.rast.y = s.rast.H then .next (s.emitRast .endOfRows)
    else
      match rastRow s.mem s.rast s.rast.y.toNat with
      | .error e => .fault e
      | .ok row => .next ((s.withRast { s.rast with y := s.rast.y + 1 }).emitRast (.row row))

/-- RAST_RESTART: RAST_IDLE, or back to row 0 (R209). -/
def execRastRestart (s : State) : Host.Outcome State Fault Refusal :=
  match s.rast.state with
  | .idle => .next (raiseError .rastIdle s)
  | .active => .next (s.withRast { s.rast with y := 0 })

end Sys2Proof.Machine
end

