-- ==== Sys2Proof/Machine/Dispatch.lean ====
section
/-! DEFINITION. One arm per instruction. -/

namespace Sys2Proof.Machine

def exec (i : Instr) (s : State) : Host.Outcome State Fault Refusal :=
  match i with
  | .print f => Sys2Proof.Machine.execPrint f s
  | .feed f => Sys2Proof.Machine.execFeed f s
  | .setHeat f => Sys2Proof.Machine.execSetHeat f s
  | .queryStatus f => Sys2Proof.Machine.execQueryStatus f s
  | .reset f => Sys2Proof.Machine.execReset f s
  | .statusReport f => Sys2Proof.Machine.execStatusReport f s
  | .cfgLoad record => Sys2Proof.Machine.execCfgLoad record s
  | .decClear => Sys2Proof.Machine.execDecClear s
  | .enc cmd => Sys2Proof.Machine.execEnc cmd s
  | .decByte b => Sys2Proof.Machine.execDecByte b s
  | .rastStart img deviceWidth dither => Sys2Proof.Machine.execRastStart img deviceWidth dither s
  | .rastNext => Sys2Proof.Machine.execRastNext s
  | .rastRestart => Sys2Proof.Machine.execRastRestart s

end Sys2Proof.Machine
end

