-- ==== Sys2Proof/Machine/Fetch.lean ====
section
/-! DEFINITION. Where the next instruction comes from: the transaction at the head of the host's pending inputs (10_state.md rule R20, 20_memory.md rule R71, log 1). -/

namespace Sys2Proof.Machine

/-- The instruction at the front of a transaction (R20). -/
def fetchInstr (cfg : Cfg) (t : Transaction) : Instr := (decode cfg t).1

/-- What stays pending once that instruction is taken: the rest of its transaction, then the later inputs (R71). -/
def fetchRest (cfg : Cfg) (t : Transaction) (later : List Input) : List Input :=
  match (decode cfg t).2 with
  | none => later
  | some t' => .op t' :: later

/-- The inputs that carry a table word: one RX transaction with its bytes (log 14). -/
def wordInputs (nbits w : Nat) : List Input :=
  match rxOf (tableBytes nbits w) with
  | none => []
  | some t => [.op t]

end Sys2Proof.Machine
end

