-- ==== Sys2Proof/Machine/Step.lean ====
section
/-! DEFINITION. One step: the block takes the host's next pending input. With none pending it does nothing (60_exceptions.md rule R278); it has no halting state (70_reset_and_hazards.md rule R301). -/

namespace Sys2Proof.Machine

def step (s : State) : Host.Outcome State Fault Refusal :=
  match s.inputs with
  | [] => .next s
  | .blockReset :: later => .next (blockReset (s.withInputs later))
  | .hostWrite a b :: later => hostWrite a b (s.withInputs later)
  | .op t :: later => exec (fetchInstr s.cfg t) (s.withInputs (fetchRest s.cfg t later))

/-- The state whose next step runs the instruction of a table word: its bytes stand first among the pending inputs (log 14). -/
def State.withFetchWord (s : State) (nbits w : Nat) : State :=
  s.withInputs (wordInputs nbits w ++ s.inputs)

end Sys2Proof.Machine
end

