-- ==== Sys2Proof/Safety.lean ====
section
/-! DEFINITION. What the statements speak of beside one step: sequences of operations, a buffer that the host provides (20_memory.md rules R68, R70), legal frames (30_encoding.md rules R80, R84), the units (00_scope.md rule R2), and the invariants of the registers. -/

namespace Sys2Proof.Machine

/-! ### Sequences of operations -/

/-- Operations one after the other, up to the first stop (70_reset_and_hazards.md rule R301). -/
def execAll : List Instr → State → Host.Outcome State Fault Refusal
  | [], s => .next s
  | i :: is, s =>
    match exec i s with
    | .next t => execAll is t
    | .fault f => .fault f
    | .refused r => .refused r

/-- `DEC <bytes>`: one DEC_BYTE per byte, in order (R97, R174). -/
def execDec (bytes : List Byte) (s : State) : Host.Outcome State Fault Refusal :=
  execAll (bytes.map .decByte) s

/-! ### Units -/

/-- The four units (R2). -/
inductive BlockUnit where
  | cfg
  | enc
  | dec
  | rast
deriving DecidableEq, Repr

/-- The unit that performs an instruction (R2); DEC receives the frames. -/
def unitOf : Instr → BlockUnit
  | .print _ => .dec
  | .feed _ => .dec
  | .setHeat _ => .dec
  | .queryStatus _ => .dec
  | .reset _ => .dec
  | .statusReport _ => .dec
  | .cfgLoad _ => .cfg
  | .decClear => .dec
  | .enc _ => .enc
  | .decByte _ => .dec
  | .rastStart _ _ _ => .rast
  | .rastNext => .rast
  | .rastRestart => .rast

/-! ### Legal frames -/

/-- The fields of the frame that carries payload `p` under a configuration (R80, R91, R92). -/
def legalFields (cfg : Cfg) (k : Kind) (p : List Byte) : FrameFields :=
  let len : Half := BitVec.ofNat 16 p.length
  { len := len, payload := p,
    checksum := ck cfg (opcodeOf cfg k :: loByte len :: hiByte len :: p),
    term0 := cfg.term0, term1 := cfg.term1 }

/-! ### The host's duty -/

/-- Every byte of a pixel buffer is readable (R68). -/
def imageProvided (m : Memory) (img : ImageDesc) : Prop :=
  ∀ a, img.base ≤ a → a < img.base + imageBytes img → (m.read? a).isSome

/-! ### Invariants -/

/-- The configuration registers hold a valid record (R30, R31). -/
abbrev cfgValid (c : Cfg) : Prop := firstFailingCheck (recordOf c) = none

/-- A length the decoder has accepted (R163, R164). -/
def lenAccepted (c : Cfg) (d : Dec) : Prop :=
  d.len.toNat ≤ c.maxPayload.toNat ∧ shapeOk c d.kind d.len.toNat = true

/-- The first `n` entries of BUF have been written (R39: no rule reads an entry that the frame has not written). -/
def bufWritten (d : Dec) (n : Nat) : Prop := ∀ i, i < n → (d.buf.read? i).isSome

/-- What the decoder's registers promise in each state (R34 to R39). -/
def decOk (c : Cfg) (d : Dec) : Prop :=
  d.buf.wf ∧ (∀ x ∈ d.buf, x.1 < bufSize) ∧
  match d.state with
  | .awaitHeader => True
  | .awaitLength0 => True
  | .awaitLength1 => True
  | .awaitPayload => lenAccepted c d ∧ d.count.toNat < d.len.toNat ∧ bufWritten d d.count.toNat
  | .awaitChecksum => lenAccepted c d ∧ bufWritten d d.len.toNat
  | .awaitTerminator0 => lenAccepted c d ∧ bufWritten d d.len.toNat
  | .awaitTerminator1 => lenAccepted c d ∧ bufWritten d d.len.toNat

/-- What the rasterizer's registers promise (R42 to R45, R200). -/
def rastOk (r : Rast) : Prop :=
  r.y.toNat ≤ r.H.toNat ∧
  (r.state = .active →
    r.img.width ≠ 0 ∧ r.img.height ≠ 0 ∧ r.W ≠ 0 ∧
    r.H.toNat = outHeight r.img.width.toNat r.img.height.toNat r.W.toNat)

/-- The invariant of the machine: a valid configuration, consistent decoder and rasterizer registers, memory in canonical form. -/
def Inv (s : State) : Prop :=
  cfgValid s.cfg ∧ decOk s.cfg s.dec ∧ rastOk s.rast ∧ s.mem.wf

/-- DEC.acc is the running checksum over the frame's bytes so far (R38, R91). -/
def accOk (c : Cfg) (d : Dec) : Prop :=
  match d.state with
  | .awaitHeader => True
  | .awaitLength0 => d.acc = ck c [opcodeOf c d.kind]
  | .awaitLength1 => d.acc = ck c [opcodeOf c d.kind, d.lenLo]
  | .awaitPayload =>
    d.acc = ck c (opcodeOf c d.kind :: loByte d.len :: hiByte d.len :: (List.range d.count.toNat).map (bufRead d))
  | .awaitChecksum => d.acc = ck c (opcodeOf c d.kind :: loByte d.len :: hiByte d.len :: bufPayload d)
  | .awaitTerminator0 => d.acc = ck c (opcodeOf c d.kind :: loByte d.len :: hiByte d.len :: bufPayload d)
  | .awaitTerminator1 => d.acc = ck c (opcodeOf c d.kind :: loByte d.len :: hiByte d.len :: bufPayload d)

/-! ### Safe runs -/

/-- A run from a state is safe when no step of it is stuck (R68, U13, U14). -/
def neverStuck (s : State) : Prop := ∀ n, ∃ t, Sys2Proof.core.run n s = .next t

/-- A RAST_START that binds its image (R200). -/
def bindsImage (img : ImageDesc) (w : Word) : Prop :=
  img.width ≠ 0 ∧ img.height ≠ 0 ∧ w ≠ 0 ∧ outHeight img.width.toNat img.height.toNat w.toNat < 2 ^ 32

/-- While a conversion runs, its buffer is readable (R68). -/
def boundBufferProvided (s : State) : Prop := s.rast.state = .active → imageProvided s.mem s.rast.img

/-- What the host owes for an input at the moment the block takes it: a RAST_START that binds names a readable buffer (R68), and a write leaves the buffer bound just then alone (R70).
Every other write is the host's own affair (R60). -/
def inputKeepsDuty (s : State) : Input → Prop
  | .op (.cfgIn _) => True
  | .op (.encCmd _) => True
  | .op (.rx _ _) => True
  | .op .rxClear => True
  | .op (.rastCtl (.start img w _)) => bindsImage img w → imageProvided s.mem img
  | .op (.rastCtl .next) => True
  | .op (.rastCtl .restart) => True
  | .blockReset => True
  | .hostWrite a _ => ¬ (s.rast.state = .active ∧ s.rast.img.base ≤ a ∧ a < s.rast.img.base + imageBytes s.rast.img)

/-- The next input, if one is pending, keeps the host's duty. -/
def nextKeepsDuty (s : State) : Prop := ∀ x later, s.inputs = x :: later → inputKeepsDuty s x

/-- A host keeps its duty when each pending input keeps it in the state in which it is taken (R68, R70). -/
def hostKeepsDuty (s : State) : Prop := ∀ n t, Sys2Proof.core.run n s = .next t → nextKeepsDuty t

end Sys2Proof.Machine
end

