-- ==== Sys2Proof/Certificates/Slice0/Obligations.lean ====
section
/-! DEFINITION. The statements for the provers, from the numbered rules of spec/. Each docstring names the rule. -/

open Sys2Proof Sys2Proof.Machine

/-! ### Encoding -/

/-- Under six distinct opcodes, decoding the transaction of a well-formed instruction gives the instruction back, every operand as it was, with nothing left over (R20, R80, R82, R83, R96). The port transactions are the model's form of an operation (log 2). -/
def Obligations.DecodeReturnsEncodedInstruction : Prop :=
  ∀ (cfg : Cfg) (i : Instr), cfg.opcodes.Nodup → i.wf = true → decode cfg (encode cfg i) = (i, none)

/-- What the frame decoder reads is what stands in front: opcode, length, L payload bytes, checksum, two terminator bytes (R80, R82, R96). -/
def Obligations.DecodedFrameIsThePrefix : Prop :=
  ∀ (cfg : Cfg) (bs : List Byte) (i : Instr) (after : List Byte), decodeFrame cfg bs = .ok (i, after) →
    ∃ (k : Kind) (f : FrameFields), i = frameInstr k f ∧ f.payload.length = f.len.toNat ∧
      bs = opcodeOf cfg k :: f.len.setWidth 8 :: (f.len >>> 8).setWidth 8 ::
        (f.payload ++ [f.checksum, f.term0, f.term1] ++ after)

/-- The frame decoder rejects exactly: no byte, a first byte that is no header byte (R93), bytes that end before byte 5 + L (R96). -/
def Obligations.FrameDecoderRejectsByName : Prop :=
  ∀ (cfg : Cfg) (bs : List Byte),
    (decodeFrame cfg bs = .error .noBytes ↔ bs = []) ∧
    (∀ b, decodeFrame cfg bs = .error (.notHeader b) ↔ ∃ more, bs = b :: more ∧ kindOf cfg b = none) ∧
    (decodeFrame cfg bs = .error .truncated ↔
      ∃ op more, bs = op :: more ∧ kindOf cfg op ≠ none ∧
        (more.length < 2 ∨ bs.length < 6 + ((more.getD 0 0).toNat + 256 * (more.getD 1 0).toNat)))

/-- R32: under distinct opcodes kindOf and opcodeOf are inverse, and a byte is no header byte exactly when it is no opcode. -/
def Obligations.OpcodeLookupIsInverse : Prop :=
  ∀ (cfg : Cfg), cfg.opcodes.Nodup →
    (∀ (b : Byte) (k : Kind), kindOf cfg b = some k ↔ b = opcodeOf cfg k) ∧
    (∀ b : Byte, kindOf cfg b = none ↔ b ∉ cfg.opcodes)

/-- Frames of 95_test_vectors.md sections 2 and 3, byte by byte, are read as the instructions they stand for. -/
def Obligations.SampleFramesDecode : Prop :=
  decodeFrame Cfg.reset [0xA2, 0x02, 0x00, 0x03, 0x00, 0xA7, 0x0D, 0x0A]
      = .ok (.feed { len := 2, payload := [0x03, 0x00], checksum := 0xA7, term0 := 0x0D, term1 := 0x0A }, []) ∧
  decodeFrame Cfg.reset [0xA3, 0x01, 0x00, 0xC8, 0x6C, 0x0D, 0x0A]
      = .ok (.setHeat { len := 1, payload := [0xC8], checksum := 0x6C, term0 := 0x0D, term1 := 0x0A }, []) ∧
  decodeFrame Cfg.reset [0xA4, 0x00, 0x00, 0xA4, 0x0D, 0x0A, 0xA5]
      = .ok (.queryStatus { len := 0, payload := [], checksum := 0xA4, term0 := 0x0D, term1 := 0x0A }, [0xA5]) ∧
  decodeFrame Cfg.reset [0xA5, 0x00, 0x00, 0xA5, 0x0D, 0x0A]
      = .ok (.reset { len := 0, payload := [], checksum := 0xA5, term0 := 0x0D, term1 := 0x0A }, []) ∧
  decodeFrame Cfg.reset [0xB1, 0x01, 0x00, 0x01, 0xB3, 0x0D, 0x0A]
      = .ok (.statusReport { len := 1, payload := [0x01], checksum := 0xB3, term0 := 0x0D, term1 := 0x0A }, []) ∧
  decodeFrame { Cfg.reset with deviceWidth := 16 } [0xA1, 0x02, 0x00, 0xF0, 0x0F, 0xA2, 0x0D, 0x0A]
      = .ok (.print { len := 2, payload := [0xF0, 0x0F], checksum := 0xA2, term0 := 0x0D, term1 := 0x0A }, [])

/-! ### The step -/

/-- A step with a pending transaction runs the instruction that the transaction decodes to; what is left of the transaction and the later inputs stay pending (R20, R71; the queue is the model's, log 1). -/
def Obligations.StepRunsTheDecodedInstruction : Prop :=
  ∀ (s : State) (t : Transaction) (later : List Input), s.inputs = .op t :: later →
    step s = exec (decode s.cfg t).1 { s with
      inputs := match (decode s.cfg t).2 with
        | none => later
        | some t' => .op t' :: later }

/-- A step on RX bytes does what one DEC_BYTE per byte does, for the bytes it takes, and leaves the others pending (R97, R174; log 2). -/
def Obligations.StepOnRxBytesIsDecByteByByte : Prop :=
  ∀ (s : State) (b : Byte) (bs : List Byte) (later : List Input), s.inputs = .op (.rx b bs) :: later →
    ∃ (n : Nat) (t : State), 1 ≤ n ∧ n ≤ bs.length + 1 ∧ step s = .next t ∧
      execDec ((b :: bs).take n) { s with inputs := t.inputs } = .next t ∧
      t.inputs = match (b :: bs).drop n with
        | [] => later
        | c :: cs => .op (.rx c cs) :: later

/-- R278: with no input pending, nothing changes (the queue is the model's, log 1). -/
def Obligations.StepWithNothingPendingIsIdle : Prop :=
  ∀ s : State, s.inputs = [] → step s = .next s

/-- R290: block reset sets every register to its reset value and emits nothing; BUF is left unspecified. -/
def Obligations.BlockResetSetsEveryRegister : Prop :=
  ∀ (s : State) (later : List Input), s.inputs = .blockReset :: later →
    ∃ t, step s = .next t ∧
      t.cfg = { opcPrint := 0xA1, opcFeed := 0xA2, opcSetHeat := 0xA3, opcQueryStatus := 0xA4, opcReset := 0xA5,
                opcStatusReport := 0xB1, term0 := 0x0D, term1 := 0x0A, checksumAlg := .sum8,
                maxPayload := 3072, deviceWidth := 384 } ∧
      t.dec.state = .awaitHeader ∧ t.dec.kind = .print ∧ t.dec.lenLo = 0 ∧ t.dec.len = 0 ∧ t.dec.count = 0 ∧
      t.dec.acc = 0 ∧
      t.rast = { state := .idle, img := { width := 0, height := 0, format := .gray8, base := 0 },
                 W := 0, H := 0, dither := false, y := 0 } ∧
      t.tx = s.tx ∧ t.decOut = s.decOut ∧ t.rastOut = s.rastOut ∧ t.cfgStatus = s.cfgStatus ∧
      t.encStatus = s.encStatus

/-- R290, R291: what State.reset holds: the reset registers and no output. That nothing is pending and no host memory is listed is the model's (logs 1, 4). -/
def Obligations.ResetStateHoldsTheResetValues : Prop :=
  State.reset.cfg.opcodes = [0xA1, 0xA2, 0xA3, 0xA4, 0xA5, 0xB1] ∧
  State.reset.cfg.term0 = 0x0D ∧ State.reset.cfg.term1 = 0x0A ∧ State.reset.cfg.checksumAlg = .sum8 ∧
  State.reset.cfg.maxPayload = 3072 ∧ State.reset.cfg.deviceWidth = 384 ∧ State.reset.cfg.rowBytes = 48 ∧
  State.reset.dec.state = .awaitHeader ∧ State.reset.dec.kind = .print ∧ State.reset.dec.lenLo = 0 ∧
  State.reset.dec.len = 0 ∧ State.reset.dec.count = 0 ∧ State.reset.dec.acc = 0 ∧
  State.reset.rast = { state := .idle, img := { width := 0, height := 0, format := .gray8, base := 0 },
                       W := 0, H := 0, dither := false, y := 0 } ∧
  State.reset.tx = [] ∧ State.reset.decOut = [] ∧ State.reset.rastOut = [] ∧ State.reset.cfgStatus = [] ∧
  State.reset.encStatus = []

/-- The state after reset meets both invariants (R30: the reset values are a valid record). -/
def Obligations.ResetMeetsTheInvariants : Prop :=
  Inv State.reset ∧ accOk State.reset.cfg State.reset.dec

/-- Every step keeps the invariant: a valid configuration (R30, R31), decoder registers in their ranges with every BUF entry a rule will read already written (R37, R39, R164), rasterizer registers consistent (R45, R200), memory in canonical form. -/
def Obligations.StepKeepsTheInvariant : Prop :=
  ∀ s t : State, Inv s → step s = .next t → Inv t

/-- R38: DEC.acc stays the running checksum over the frame's bytes so far, through every step. -/
def Obligations.StepKeepsTheRunningChecksum : Prop :=
  ∀ s t : State, Inv s → accOk s.cfg s.dec → step s = .next t → accOk t.cfg t.dec

/-- The machine never refuses, and stops only where the spec calls a run stuck: RAST_NEXT reading an offset that holds no byte (R68, U13), or the host writing the bound buffer (R70, U14); how memory and host writes are held is the model's (logs 4, 6). -/
def Obligations.StepStopsOnlyWhereStuck : Prop :=
  ∀ s : State, (∀ r, step s ≠ .refused r) ∧
    ∀ f, step s = .fault f →
      (∃ later a, s.inputs = .op (.rastCtl .next) :: later ∧ s.rast.state = .active ∧ s.rast.y ≠ s.rast.H ∧
        s.mem.read? a = none ∧ f = .pixelOutsideBuffer a) ∨
      (∃ later a b, s.inputs = .hostWrite a b :: later ∧ s.rast.state = .active ∧ s.rast.img.base ≤ a ∧
        a < s.rast.img.base + imageBytes s.rast.img ∧ f = .boundBufferWritten a)

/-- R68, R70: a host that meets its duty whenever an input is taken (a buffer readable when it is bound, no write of the buffer bound just then) is never stuck, however many steps the run has. Its other writes are free, so it may write its pixels and then start. How host memory and host writes are held is the model's (logs 4, 6). -/
def Obligations.HostDutyKeepsRunsUnstuck : Prop :=
  ∀ s : State, Inv s → boundBufferProvided s → hostKeepsDuty s → neverStuck s

/-- The host's own write: stuck on a byte of the bound buffer (R70), else that byte alone changes (log 6). -/
def Obligations.HostWriteMovesOneByte : Prop :=
  ∀ (s : State) (a : Nat) (b : Byte) (later : List Input), s.inputs = .hostWrite a b :: later →
    ((s.rast.state = .active ∧ s.rast.img.base ≤ a ∧ a < s.rast.img.base + imageBytes s.rast.img) →
      step s = .fault (.boundBufferWritten a)) ∧
    (¬ (s.rast.state = .active ∧ s.rast.img.base ≤ a ∧ a < s.rast.img.base + imageBytes s.rast.img) →
      ∃ m, step s = .next { s with mem := m, inputs := later } ∧ m.read? a = some b ∧
        ∀ c, c ≠ a → m.read? c = s.mem.read? c)

/-! ### The encoder -/

/-- R120, R121: a valid command gives one frame on TX, laid out as R80 says, and nothing else changes; an invalid Print gives ENCODE_INVALID and nothing else. -/
def Obligations.EncEmitsOneFrameOrRefuses : Prop :=
  (∀ (s : State) (cmd : Command) (k : Kind) (p : List Byte),
    (k, p) = (match cmd with
      | .print rows => (Kind.print, rows.flatten)
      | .feed n => (Kind.feed, [n.setWidth 8, (n >>> 8).setWidth 8])
      | .setHeat l => (Kind.setHeat, [l])
      | .queryStatus => (Kind.queryStatus, [])
      | .reset => (Kind.reset, [])) →
    (∀ rows, cmd = .print rows → 1 ≤ rows.length ∧ (∀ r ∈ rows, r.length = s.cfg.rowBytes) ∧
      rows.length * s.cfg.rowBytes ≤ s.cfg.maxPayload.toNat) →
    ∃ fr : List Byte, exec (.enc cmd) s = .next { s with tx := s.tx ++ fr } ∧
      fr.length = 6 + p.length ∧
      fr[0]? = some (opcodeOf s.cfg k) ∧
      fr[1]? = some (BitVec.ofNat 8 (p.length % 256)) ∧
      fr[2]? = some (BitVec.ofNat 8 (p.length / 256)) ∧
      (∀ j, j < p.length → fr[3 + j]? = p[j]?) ∧
      fr[3 + p.length]? = some (ck s.cfg (fr.take (3 + p.length))) ∧
      fr[4 + p.length]? = some s.cfg.term0 ∧
      fr[5 + p.length]? = some s.cfg.term1) ∧
  (∀ (s : State) (rows : List BitRow),
    (rows = [] ∨ (∃ r ∈ rows, r.length ≠ s.cfg.rowBytes) ∨ s.cfg.maxPayload.toNat < rows.length * s.cfg.rowBytes) →
    exec (.enc (.print rows)) s = .next { s with encStatus := s.encStatus ++ [.encodeInvalid .print] })

/-- R41: what ENC emits is a function of its operand and the CFG registers: on two states that agree on CFG it appends the same bytes to TX or the same error to ENC_STATUS, and changes nothing else. -/
def Obligations.EncReadsOnlyItsOperandAndCfg : Prop :=
  ∀ (cmd : Command) (s1 s2 : State), s1.cfg = s2.cfg →
    ∃ (bytes : List Byte) (errs : List ErrorEvent),
      exec (.enc cmd) s1 = .next { s1 with tx := s1.tx ++ bytes, encStatus := s1.encStatus ++ errs } ∧
      exec (.enc cmd) s2 = .next { s2 with tx := s2.tx ++ bytes, encStatus := s2.encStatus ++ errs } ∧
      ((errs = [] ∧ 6 ≤ bytes.length) ∨ (bytes = [] ∧ errs.length = 1))

/-- R129, round trip: the bytes ENC appends to TX, fed to a decoder in AwaitHeader one DEC_BYTE each, give exactly the event Frame(cmd), on the last byte and none before it, and end in AwaitHeader. -/
def Obligations.EncodedCommandDecodesBack : Prop :=
  ∀ (s : State) (cmd : Command), cfgValid s.cfg → encValid s.cfg cmd = true → s.dec.state = .awaitHeader →
    ∃ (fr : List Byte) (t u : State), exec (.enc cmd) s = .next t ∧ t.tx = s.tx ++ fr ∧
      execDec fr t = .next u ∧ u.dec.state = .awaitHeader ∧
      u = { t with dec := u.dec, decOut := s.decOut ++ [.frame cmd] } ∧
      ∀ n, n < fr.length → ∃ v, execDec (fr.take n) t = .next v ∧ v.decOut = s.decOut

/-! ### Laws of the decoder -/

/-- R171, resynchronisation: bytes that hold no header byte, then a valid frame: one event, Frame(cmd), on the last byte, none before it, and AwaitHeader at the end. -/
def Obligations.GarbageBeforeAFrameIsSkipped : Prop :=
  ∀ (s : State) (g : List Byte) (cmd : Command), cfgValid s.cfg → encValid s.cfg cmd = true →
    s.dec.state = .awaitHeader → (∀ b ∈ g, kindOf s.cfg b = none) →
    ∀ stream : List Byte, stream = g ++ frameOf s.cfg (commandKind cmd) (commandPayload cmd) →
      (∃ u, execDec stream s = .next u ∧ u.decOut = s.decOut ++ [.frame cmd] ∧ u.dec.state = .awaitHeader) ∧
      ∀ n, n < stream.length → ∃ v, execDec (stream.take n) s = .next v ∧ v.decOut = s.decOut

/-- R172, corruption resilience: one payload byte of a valid frame changed gives FRAME_CORRUPT on the checksum byte, under either checksum algorithm, and AwaitHeader; if neither terminator byte is a header byte, the whole stream gives that one event. -/
def Obligations.ChangedPayloadByteIsCorrupt : Prop :=
  ∀ (s : State) (cmd : Command) (j : Nat) (b : Byte), cfgValid s.cfg → encValid s.cfg cmd = true →
    s.dec.state = .awaitHeader → j < (commandPayload cmd).length → (commandPayload cmd)[j]? ≠ some b →
    ∀ bad : List Byte, bad = (frameOf s.cfg (commandKind cmd) (commandPayload cmd)).set (3 + j) b →
      (∃ u, execDec (bad.take (3 + (commandPayload cmd).length)) s = .next u ∧ u.decOut = s.decOut) ∧
      (∃ u, execDec (bad.take (4 + (commandPayload cmd).length)) s = .next u ∧
        u.decOut = s.decOut ++ [.error .frameCorrupt] ∧ u.dec.state = .awaitHeader) ∧
      (kindOf s.cfg s.cfg.term0 = none → kindOf s.cfg s.cfg.term1 = none →
        ∃ u, execDec bad s = .next u ∧ u.decOut = s.decOut ++ [.error .frameCorrupt] ∧ u.dec.state = .awaitHeader)

/-- R173, bounded return: whatever the bytes, within 5 + MAX_PAYLOAD of them the decoder is in AwaitHeader at least once. -/
def Obligations.DecoderReturnsToAwaitHeader : Prop :=
  ∀ (s : State) (bs : List Byte), Inv s → bs.length = 5 + s.cfg.maxPayload.toNat →
    ∃ n t, n ≤ bs.length ∧ execDec (bs.take n) s = .next t ∧ t.dec.state = .awaitHeader

/-- R94: a frame whose length is over MAX_PAYLOAD, whose length fails its kind's shape, whose checksum byte differs from ck, or whose terminator differs, gives FRAME_CORRUPT as its first event. -/
def Obligations.IllegalFrameIsCorrupt : Prop :=
  ∀ (s : State) (k : Kind) (f : FrameFields), s.cfg.opcodes.Nodup → s.dec.state = .awaitHeader →
    f.payload.length = f.len.toNat →
    (s.cfg.maxPayload.toNat < f.len.toNat ∨ shapeOk s.cfg k f.len.toNat = false ∨
      f.checksum ≠ ck s.cfg (opcodeOf s.cfg k :: loByte f.len :: hiByte f.len :: f.payload) ∨
      f.term0 ≠ s.cfg.term0 ∨ f.term1 ≠ s.cfg.term1) →
    ∃ n t, n ≤ (frameBytes s.cfg k f).length ∧ execDec ((frameBytes s.cfg k f).take n) s = .next t ∧
      t.decOut = s.decOut ++ [.error .frameCorrupt] ∧ t.dec.state = .awaitHeader

/-! ### The decoder, state by state -/

/-- R161: in AwaitHeader a byte that is no header byte changes nothing; a header byte sets DEC.kind, DEC.acc and AwaitLength0. No event either way. -/
def Obligations.ByteInAwaitHeader : Prop :=
  ∀ (s : State) (b : Byte), s.dec.state = .awaitHeader →
    (kindOf s.cfg b = none → exec (.decByte b) s = .next s) ∧
    (∀ k, kindOf s.cfg b = some k →
      exec (.decByte b) s = .next { s with
        dec := { s.dec with kind := k, acc := ckUpdate s.cfg ckInit b, state := .awaitLength0 } })

/-- R162: in AwaitLength0 every byte is the low length byte. -/
def Obligations.ByteInAwaitLength0 : Prop :=
  ∀ (s : State) (b : Byte), s.dec.state = .awaitLength0 →
    exec (.decByte b) s = .next { s with
      dec := { s.dec with lenLo := b, acc := ckUpdate s.cfg s.dec.acc b, state := .awaitLength1 } }

/-- R163: in AwaitLength1 the length is complete: Corrupt on overflow or on a wrong shape, AwaitChecksum for length 0, else AwaitPayload with count 0. That DEC.acc takes the byte before a Corrupt is the model's reading (log 7). -/
def Obligations.ByteInAwaitLength1 : Prop :=
  ∀ (s : State) (b : Byte) (L : Nat), s.dec.state = .awaitLength1 → L = s.dec.lenLo.toNat + 256 * b.toNat →
    ((s.cfg.maxPayload.toNat < L ∨ shapeOk s.cfg s.dec.kind L = false) →
      exec (.decByte b) s = .next { s with
        dec := { s.dec with acc := ckUpdate s.cfg s.dec.acc b, state := .awaitHeader },
        decOut := s.decOut ++ [.error .frameCorrupt] }) ∧
    (L ≤ s.cfg.maxPayload.toNat → shapeOk s.cfg s.dec.kind L = true → L = 0 →
      exec (.decByte b) s = .next { s with
        dec := { s.dec with acc := ckUpdate s.cfg s.dec.acc b, len := 0, state := .awaitChecksum } }) ∧
    (L ≤ s.cfg.maxPayload.toNat → shapeOk s.cfg s.dec.kind L = true → L ≠ 0 →
      exec (.decByte b) s = .next { s with
        dec := { s.dec with acc := ckUpdate s.cfg s.dec.acc b, len := BitVec.ofNat 16 L, count := 0, state := .awaitPayload } })

/-- R164: in AwaitPayload the byte goes to BUF[DEC.count] and to the checksum, every other entry of BUF stays, and the last byte moves to AwaitChecksum. -/
def Obligations.ByteInAwaitPayload : Prop :=
  ∀ (s : State) (b : Byte), s.dec.state = .awaitPayload → s.dec.count.toNat < s.dec.len.toNat →
    ∃ d, exec (.decByte b) s = .next { s with dec := d } ∧
      bufRead d s.dec.count.toNat = b ∧ (∀ i, i ≠ s.dec.count.toNat → bufRead d i = bufRead s.dec i) ∧
      d.acc = ckUpdate s.cfg s.dec.acc b ∧ d.count.toNat = s.dec.count.toNat + 1 ∧
      d.state = (if s.dec.count.toNat + 1 = s.dec.len.toNat then .awaitChecksum else .awaitPayload) ∧
      d.kind = s.dec.kind ∧ d.lenLo = s.dec.lenLo ∧ d.len = s.dec.len

/-- R165, R166: the checksum byte and the first terminator byte are compared as they arrive: AwaitTerminator0, AwaitTerminator1, or Corrupt, and no other register changes. -/
def Obligations.ChecksumAndFirstTerminatorByte : Prop :=
  ∀ (s : State) (b : Byte),
    (s.dec.state = .awaitChecksum → b = s.dec.acc →
      exec (.decByte b) s = .next { s with dec := { s.dec with state := .awaitTerminator0 } }) ∧
    (s.dec.state = .awaitTerminator0 → b = s.cfg.term0 →
      exec (.decByte b) s = .next { s with dec := { s.dec with state := .awaitTerminator1 } }) ∧
    ((s.dec.state = .awaitChecksum ∧ b ≠ s.dec.acc) ∨ (s.dec.state = .awaitTerminator0 ∧ b ≠ s.cfg.term0) →
      exec (.decByte b) s = .next { s with
        dec := { s.dec with state := .awaitHeader }, decOut := s.decOut ++ [.error .frameCorrupt] })

/-- R167, R168: on the second terminator byte a good frame gives its event, built from the payload in BUF by its kind, and AwaitHeader; another byte gives Corrupt. -/
def Obligations.LastTerminatorByte : Prop :=
  ∀ (s : State) (b : Byte), s.dec.state = .awaitTerminator1 →
    (b ≠ s.cfg.term1 → exec (.decByte b) s = .next { s with
        dec := { s.dec with state := .awaitHeader }, decOut := s.decOut ++ [.error .frameCorrupt] }) ∧
    (b = s.cfg.term1 → shapeOk s.cfg s.dec.kind s.dec.len.toNat = true →
      ∃ (p : List Byte) (ev : DecEvent), p.length = s.dec.len.toNat ∧
        (∀ i, i < s.dec.len.toNat → p[i]? = some (bufRead s.dec i)) ∧
        exec (.decByte b) s = .next { s with
          dec := { s.dec with state := .awaitHeader }, decOut := s.decOut ++ [ev] } ∧
        (s.dec.kind = .print → ∃ rows, ev = .frame (.print rows) ∧ rows.flatten = p ∧
          rows.length = s.dec.len.toNat / s.cfg.rowBytes ∧ ∀ r ∈ rows, r.length = s.cfg.rowBytes) ∧
        (s.dec.kind = .feed → ∃ n, ev = .frame (.feed n) ∧ n.toNat = (p.getD 0 0).toNat + 256 * (p.getD 1 0).toNat) ∧
        (s.dec.kind = .setHeat → ev = .frame (.setHeat (p.getD 0 0))) ∧
        (s.dec.kind = .queryStatus → ev = .frame .queryStatus) ∧
        (s.dec.kind = .reset → ev = .frame .reset) ∧
        (s.dec.kind = .statusReport → ev = .status
          { paperPresent := !(p.getD 0 0).getLsbD 0, overTemperature := (p.getD 0 0).getLsbD 1,
            lowBattery := (p.getD 0 0).getLsbD 2, busy := (p.getD 0 0).getLsbD 3 }))

/-- R160, R169: a byte changes DEC and DEC_OUT alone and gives at most one event; an event means AwaitHeader; Corrupt changes no other register of DEC than DEC.state and, at AwaitLength1, DEC.acc (log 7). -/
def Obligations.DecByteGivesAtMostOneEvent : Prop :=
  ∀ (s : State) (b : Byte), ∃ (d : Dec) (evs : List DecEvent),
    exec (.decByte b) s = .next { s with dec := d, decOut := s.decOut ++ evs } ∧ evs.length ≤ 1 ∧
    (evs ≠ [] → d.state = .awaitHeader) ∧
    (.error .frameCorrupt ∈ evs → { d with acc := s.dec.acc } = { s.dec with state := .awaitHeader } ∧
      (s.dec.state ≠ .awaitLength1 → d.acc = s.dec.acc))

/-! ### Frames as instructions (log 2) -/

/-- Each frame instruction does what one DEC_BYTE per byte of the frame does (R80, R97). That a whole frame is one instruction is the model's choice (log 2). -/
def Obligations.FrameInstructionsAreTheirBytes : Prop :=
  ∀ (s : State) (f : FrameFields) (rest : List Byte),
    rest = f.len.setWidth 8 :: (f.len >>> 8).setWidth 8 :: (f.payload ++ [f.checksum, f.term0, f.term1]) →
    exec (.print f) s = execDec (s.cfg.opcPrint :: rest) s ∧
    exec (.feed f) s = execDec (s.cfg.opcFeed :: rest) s ∧
    exec (.setHeat f) s = execDec (s.cfg.opcSetHeat :: rest) s ∧
    exec (.queryStatus f) s = execDec (s.cfg.opcQueryStatus :: rest) s ∧
    exec (.reset f) s = execDec (s.cfg.opcReset :: rest) s ∧
    exec (.statusReport f) s = execDec (s.cfg.opcStatusReport :: rest) s

/-- R122: a PRINT frame over n rows of ROW_BYTES bytes gives Frame(Print(rows)), every bit unchanged, and nothing outside DEC and DEC_OUT changes (the whole frame in one step: log 2). -/
def Obligations.PrintFrameGivesItsRows : Prop :=
  ∀ (s : State) (rows : List BitRow), cfgValid s.cfg → s.dec.state = .awaitHeader → 1 ≤ rows.length →
    (∀ r ∈ rows, r.length = s.cfg.rowBytes) → rows.length * s.cfg.rowBytes ≤ s.cfg.maxPayload.toNat →
    ∃ d, exec (.print (legalFields s.cfg .print rows.flatten)) s
        = .next { s with dec := d, decOut := s.decOut ++ [.frame (.print rows)] } ∧ d.state = .awaitHeader

/-- R123: a FEED frame with payload bytes lo, hi gives Frame(Feed(lo + 256 hi)) (log 2). -/
def Obligations.FeedFrameGivesItsLines : Prop :=
  ∀ (s : State) (lo hi : Byte), cfgValid s.cfg → s.dec.state = .awaitHeader →
    ∃ d n, exec (.feed (legalFields s.cfg .feed [lo, hi])) s
        = .next { s with dec := d, decOut := s.decOut ++ [.frame (.feed n)] } ∧ d.state = .awaitHeader ∧
      n.toNat = lo.toNat + 256 * hi.toNat

/-- R124: a SET_HEAT frame gives Frame(SetHeat(level)) (log 2). -/
def Obligations.SetHeatFrameGivesItsLevel : Prop :=
  ∀ (s : State) (level : Byte), cfgValid s.cfg → s.dec.state = .awaitHeader →
    ∃ d, exec (.setHeat (legalFields s.cfg .setHeat [level])) s
        = .next { s with dec := d, decOut := s.decOut ++ [.frame (.setHeat level)] } ∧ d.state = .awaitHeader

/-- R125, R126: a QUERY_STATUS frame gives Frame(QueryStatus); a RESET frame gives Frame(Reset), and the block is not reset by it (log 2). -/
def Obligations.QueryStatusAndResetFrames : Prop :=
  ∀ s : State, cfgValid s.cfg → s.dec.state = .awaitHeader →
    (∃ d, exec (.queryStatus (legalFields s.cfg .queryStatus [])) s
        = .next { s with dec := d, decOut := s.decOut ++ [.frame .queryStatus] } ∧ d.state = .awaitHeader) ∧
    (∃ d, exec (.reset (legalFields s.cfg .reset [])) s
        = .next { s with dec := d, decOut := s.decOut ++ [.frame .reset] } ∧ d.state = .awaitHeader)

/-- R127, R88: a STATUS_REPORT frame gives the report of its status byte; bits 7:4 are ignored (log 2). -/
def Obligations.StatusReportFrameGivesItsReport : Prop :=
  ∀ (s : State) (b : Byte), cfgValid s.cfg → s.dec.state = .awaitHeader →
    ∃ d, exec (.statusReport (legalFields s.cfg .statusReport [b])) s
        = .next { s with dec := d, decOut := s.decOut ++ [.status
            { paperPresent := decide (b.toNat % 2 = 0), overTemperature := decide (b.toNat / 2 % 2 = 1),
              lowBattery := decide (b.toNat / 4 % 2 = 1), busy := decide (b.toNat / 8 % 2 = 1) }] } ∧
      d.state = .awaitHeader

/-! ### Payload shapes, checksums, status bits -/

/-- R84: the legal payload lengths of the six kinds. -/
def Obligations.PayloadShapesAreFixedByKind : Prop :=
  ∀ (cfg : Cfg) (L : Nat),
    (shapeOk cfg .print L = true ↔ 1 ≤ L ∧ L % cfg.rowBytes = 0 ∧ L ≤ cfg.maxPayload.toNat) ∧
    (shapeOk cfg .feed L = true ↔ L = 2) ∧ (shapeOk cfg .setHeat L = true ↔ L = 1) ∧
    (shapeOk cfg .queryStatus L = true ↔ L = 0) ∧ (shapeOk cfg .reset L = true ↔ L = 0) ∧
    (shapeOk cfg .statusReport L = true ↔ L = 1)

/-- R89: SUM8 is the sum of the bytes modulo 256 (of no bytes, 0), and its running accumulator starts at 0, adds each byte modulo 256 and ends as it is. -/
def Obligations.Sum8IsTheSumModulo256 : Prop :=
  ∀ (cfg : Cfg) (d : List Byte), cfg.checksumAlg = .sum8 →
    (ck cfg d).toNat = (d.map BitVec.toNat).sum % 256 ∧
    ckInit = 0 ∧ ∀ acc b : Byte, (ckUpdate cfg acc b).toNat = (acc.toNat + b.toNat) % 256 ∧ ckFinal acc = acc

/-- R90: the CRC8 check value of the ASCII bytes "123456789", and the running accumulator of 95_test_vectors.md section 2.3. -/
def Obligations.Crc8CheckValues : Prop :=
  ∀ cfg : Cfg, cfg.checksumAlg = .crc8 →
    ck cfg [0x31, 0x32, 0x33, 0x34, 0x35, 0x36, 0x37, 0x38, 0x39] = 0xF4 ∧
    ck cfg [0xA3, 0x01, 0x00, 0xC8] = 0xD8 ∧ ck cfg [] = 0

/-- R128: a report is faulted exactly when paper is out or the head is over temperature (low battery and busy are no fault bits); of a decoded one, when wire bit 0 or bit 1 is 1. -/
def Obligations.FaultBitsArePaperOutAndOverTemp : Prop :=
  (∀ r : StatusReport, StatusReport.faulted r = true ↔ (r.paperPresent = false ∨ r.overTemperature = true)) ∧
  ∀ b : Byte, StatusReport.faulted (statusOf b) = true ↔ (b.toNat % 2 = 1 ∨ b.toNat / 2 % 2 = 1)

/-! ### Configuration -/

/-- R250: a valid record is loaded whole and the decoder goes to AwaitHeader with no event; nothing else changes. -/
def Obligations.CfgLoadTakesAValidRecord : Prop :=
  ∀ (s : State) (r : CfgRecord), (CfgRecord.opcodes r).Nodup → (r.checksumAlg = 0 ∨ r.checksumAlg = 1) →
    1 ≤ r.deviceWidth.toNat → max 2 ((r.deviceWidth.toNat + 7) / 8) ≤ r.maxPayload.toNat → r.maxPayload.toNat ≤ 65535 →
    exec (.cfgLoad r) s = .next { s with
      cfg := { opcPrint := r.opcPrint, opcFeed := r.opcFeed, opcSetHeat := r.opcSetHeat,
               opcQueryStatus := r.opcQueryStatus, opcReset := r.opcReset, opcStatusReport := r.opcStatusReport,
               term0 := r.term0, term1 := r.term1,
               checksumAlg := if r.checksumAlg = 1 then .crc8 else .sum8,
               maxPayload := BitVec.ofNat 16 r.maxPayload.toNat, deviceWidth := r.deviceWidth },
      dec := { s.dec with state := .awaitHeader } }

/-- R251: the number of the first failing check of R30 goes to CFG_STATUS, and nothing else changes. -/
def Obligations.CfgLoadRefusesAnInvalidRecord : Prop :=
  ∀ (s : State) (r : CfgRecord) (n : Nat),
    ((n = 1 ∧ ¬ (CfgRecord.opcodes r).Nodup) ∨
     (n = 2 ∧ (CfgRecord.opcodes r).Nodup ∧ 1 < r.checksumAlg) ∨
     (n = 3 ∧ (CfgRecord.opcodes r).Nodup ∧ r.checksumAlg ≤ 1 ∧ r.deviceWidth.toNat = 0) ∨
     (n = 4 ∧ (CfgRecord.opcodes r).Nodup ∧ r.checksumAlg ≤ 1 ∧ 1 ≤ r.deviceWidth.toNat ∧
       (r.maxPayload.toNat < max 2 ((r.deviceWidth.toNat + 7) / 8) ∨ 65535 < r.maxPayload.toNat))) →
    exec (.cfgLoad r) s = .next { s with cfgStatus := s.cfgStatus ++ [.configInvalid n] }

/-- R252: DEC_CLEAR puts the decoder in AwaitHeader, with no event, and changes nothing else. -/
def Obligations.DecClearOnlyMovesTheDecoderState : Prop :=
  ∀ s : State, exec .decClear s = .next { s with dec := { s.dec with state := .awaitHeader } }

/-! ### The rasterizer -/

/-- R200, R201: RAST_START binds the image with the output height of R201, or raises INVALID_IMAGE and leaves RAST IDLE, where RAST.y is any value (U3, log 9). Nothing else changes. -/
def Obligations.RastStartBindsOrRefuses : Prop :=
  ∀ (s : State) (img : ImageDesc) (w : Word) (dither : Bool) (H : Nat),
    H = max 1 ((img.height.toNat * w.toNat) / img.width.toNat) →
    ((img.width ≠ 0 ∧ img.height ≠ 0 ∧ w ≠ 0 ∧ H < 2 ^ 32) →
      exec (.rastStart img w dither) s = .next { s with
        rast := { state := .active, img := img, W := w, H := BitVec.ofNat 32 H, dither := dither, y := 0 } }) ∧
    ((img.width = 0 ∨ img.height = 0 ∨ w = 0 ∨ 2 ^ 32 ≤ H) →
      ∃ y, exec (.rastStart img w dither) s = .next { s with
        rast := { s.rast with state := .idle, y := y },
        rastOut := s.rastOut ++ [.error (.invalidImage img.width img.height w)] })

/-- R202, R207, R208: RAST_NEXT raises RAST_IDLE when IDLE, emits End when exhausted, else emits row y: dot x in bit 7 - (x mod 8) of byte x div 8, fired when the luminance of its source pixel is below its threshold, padding 0; then RAST.y is one more. -/
def Obligations.RastNextFollowsThePipeline : Prop :=
  ∀ s : State,
    (s.rast.state = .idle → exec .rastNext s = .next { s with rastOut := s.rastOut ++ [.error .rastIdle] }) ∧
    (s.rast.state = .active → s.rast.y = s.rast.H →
      exec .rastNext s = .next { s with rastOut := s.rastOut ++ [.endOfRows] }) ∧
    (s.rast.state = .active → s.rast.y ≠ s.rast.H →
      ∀ (C : Nat) (pix : Nat → Nat → Byte) (lum thr : Nat → Nat),
        C = (match s.rast.img.format with | .gray8 => 1 | .rgb888 => 3) →
        (∀ x c, x < s.rast.W.toNat → c < C →
          s.mem.read? (s.rast.img.base +
            (s.rast.y.toNat * s.rast.img.height.toNat / s.rast.H.toNat * s.rast.img.width.toNat +
              x * s.rast.img.width.toNat / s.rast.W.toNat) * C + c) = some (pix x c)) →
        (∀ x, lum x = (match s.rast.img.format with
          | .gray8 => (pix x 0).toNat
          | .rgb888 => (77 * (pix x 0).toNat + 150 * (pix x 1).toNat + 29 * (pix x 2).toNat) / 256)) →
        (∀ x, thr x = if s.rast.dither then
            16 * ((([[0, 8, 2, 10], [12, 4, 14, 6], [3, 11, 1, 9], [15, 7, 13, 5]] : List (List Nat)).getD
              (s.rast.y.toNat % 4) []).getD (x % 4) 0) + 8
          else 128) →
        ∃ row : BitRow,
          exec .rastNext s = .next { s with
            rast := { s.rast with y := s.rast.y + 1 }, rastOut := s.rastOut ++ [.row row] } ∧
          row.length = (s.rast.W.toNat + 7) / 8 ∧
          (∀ x, x < s.rast.W.toNat → (row.getD (x / 8) 0).getLsbD (7 - x % 8) = decide (lum x < thr x)) ∧
          (∀ x, s.rast.W.toNat ≤ x → x < 8 * row.length → (row.getD (x / 8) 0).getLsbD (7 - x % 8) = false))

/-- R209: RAST_RESTART rewinds to row 0 and emits nothing, or raises RAST_IDLE. -/
def Obligations.RastRestartRewinds : Prop :=
  ∀ s : State,
    (s.rast.state = .active → exec .rastRestart s = .next { s with rast := { s.rast with y := 0 } }) ∧
    (s.rast.state = .idle → exec .rastRestart s = .next { s with rastOut := s.rastOut ++ [.error .rastIdle] })

/-- R203: the source pixel of every dot lies in the image, and an image as wide as the device is not resampled. -/
def Obligations.SourcePixelLiesInTheImage : Prop :=
  ∀ r : Rast, rastOk r → r.state = .active →
    (∀ x, x < r.W.toNat → srcCol r x < r.img.width.toNat) ∧
    (∀ y, y < r.H.toNat → srcRow r y < r.img.height.toNat) ∧
    (r.img.width = r.W → r.H = r.img.height ∧ (∀ x, srcCol r x = x) ∧ ∀ y, srcRow r y = y)

/-- R210: after a successful RAST_START over a readable image, H RAST_NEXT operations emit exactly H rows of ceil(W / 8) bytes, and the next one emits End. -/
def Obligations.ConversionEmitsItsRowsThenEnd : Prop :=
  ∀ (s : State) (img : ImageDesc) (w : Word) (dither : Bool) (H : Nat),
    img.width ≠ 0 → img.height ≠ 0 → w ≠ 0 → H = max 1 ((img.height.toNat * w.toNat) / img.width.toNat) → H < 2 ^ 32 →
    imageProvided s.mem img →
    ∃ (rows : List BitRow) (t : State),
      execAll (.rastStart img w dither :: List.replicate H .rastNext) s = .next t ∧
      t.rastOut = s.rastOut ++ rows.map .row ∧ rows.length = H ∧ (∀ r ∈ rows, r.length = (w.toNat + 7) / 8) ∧
      exec .rastNext t = .next { t with rastOut := t.rastOut ++ [.endOfRows] }

/-- R211: the events after RAST_RESTART are the events from row 0 on, one for one. -/
def Obligations.RestartRepeatsTheRows : Prop :=
  ∀ (s : State) (n : Nat), rastOk s.rast → s.rast.state = .active → s.rast.y = 0 → imageProvided s.mem s.rast.img →
    ∃ (evs : List RastEvent) (t u : State), evs.length = n ∧
      execAll (List.replicate n .rastNext) s = .next t ∧ t.rastOut = s.rastOut ++ evs ∧
      execAll (.rastRestart :: List.replicate n .rastNext) t = .next u ∧ u.rastOut = t.rastOut ++ evs

/-- R211, R31: a row is a function of RAST's registers and the bytes of the bound buffer alone: two states that agree on these give the same event, whatever CFG, DEC, the other memory and the outputs hold. -/
def Obligations.RowDependsOnlyOnTheImage : Prop :=
  ∀ s1 s2 : State, s1.rast = s2.rast → rastOk s1.rast → s1.rast.state = .active → imageProvided s1.mem s1.rast.img →
    (∀ a, s1.rast.img.base ≤ a → a < s1.rast.img.base + imageBytes s1.rast.img → s1.mem.read? a = s2.mem.read? a) →
    ∃ (r : Rast) (ev : RastEvent),
      exec .rastNext s1 = .next { s1 with rast := r, rastOut := s1.rastOut ++ [ev] } ∧
      exec .rastNext s2 = .next { s2 with rast := r, rastOut := s2.rastOut ++ [ev] }

/-- R206: a dot is fired exactly when its luminance is below its threshold; luminance 255 is white and 0 is black under every threshold. -/
def Obligations.WhiteNeverFiresBlackAlwaysFires : Prop :=
  (∀ lum t, dot lum t = true ↔ lum < t) ∧
  ∀ (dither : Bool) (x y : Nat), dot 255 (threshold dither x y) = false ∧ dot 0 (threshold dither x y) = true

/-! ### The whole machine -/

/-- R71, R273: operations of different units may come in either order, unless one is a CFG_LOAD and the other reads CFG. -/
def Obligations.UnitsCommute : Prop :=
  ∀ (s : State) (i j : Instr), unitOf i ≠ unitOf j → (unitOf i = .cfg → unitOf j = .rast) →
    (unitOf j = .cfg → unitOf i = .rast) → execAll [i, j] s = execAll [j, i] s

/-- R260: an operation raises at most one error, on its own unit's port, and an operation that raises one emits no other output; outputs already emitted stay. (A frame instruction is several operations: log 2.) -/
def Obligations.AnErrorIsTheOnlyOutput : Prop :=
  ∀ (s t : State) (i : Instr),
    ((∃ r, i = .cfgLoad r) ∨ i = .decClear ∨ (∃ c, i = .enc c) ∨ (∃ b, i = .decByte b) ∨
      (∃ img w d, i = .rastStart img w d) ∨ i = .rastNext ∨ i = .rastRestart) →
    exec i s = .next t →
    ∃ (tx : List Byte) (dec : List DecEvent) (rast : List RastEvent) (cfg enc : List ErrorEvent),
      t.tx = s.tx ++ tx ∧ t.decOut = s.decOut ++ dec ∧ t.rastOut = s.rastOut ++ rast ∧
      t.cfgStatus = s.cfgStatus ++ cfg ∧ t.encStatus = s.encStatus ++ enc ∧
      (unitOf i ≠ .cfg → cfg = []) ∧ (unitOf i ≠ .enc → enc = [] ∧ tx = []) ∧ (unitOf i ≠ .dec → dec = []) ∧
      (unitOf i ≠ .rast → rast = []) ∧
      dec.length ≤ 1 ∧ rast.length ≤ 1 ∧ cfg.length + enc.length ≤ 1 ∧ (enc ≠ [] → tx = [])

/-- R10, R60: no instruction writes host memory, and none takes a pending input (the model's own list, log 1). -/
def Obligations.InstructionsLeaveHostMemoryAlone : Prop :=
  ∀ (s t : State) (i : Instr), exec i s = .next t → (∀ a, t.mem.read? a = s.mem.read? a) ∧ t.inputs = s.inputs

/-- R31, R34, R42 to R45: what may change each unit's registers in a step: CFG only CFG_LOAD and reset; DEC only its bytes, DEC_CLEAR, CFG_LOAD and reset; RAST only its own requests and reset; host memory only the host. -/
def Obligations.RegistersHaveTheirWriters : Prop :=
  ∀ s t : State, step s = .next t → ∀ (x : Input) (later : List Input), s.inputs = x :: later →
    (t.cfg ≠ s.cfg → x = .blockReset ∨ ∃ r, x = .op (.cfgIn r)) ∧
    (t.dec ≠ s.dec → x = .blockReset ∨ (∃ r, x = .op (.cfgIn r)) ∨ x = .op .rxClear ∨ ∃ b bs, x = .op (.rx b bs)) ∧
    (t.rast ≠ s.rast → x = .blockReset ∨ ∃ q, x = .op (.rastCtl q)) ∧
    (t.mem ≠ s.mem → ∃ a b, x = .hostWrite a b)

/-- R272, R278: every operation but RAST_NEXT completes in one step from every state; RAST_NEXT does from every state in which it reads no byte, or whose bound buffer is readable. -/
def Obligations.OperationsComplete : Prop :=
  ∀ (s : State) (i : Instr),
    (i ≠ .rastNext ∨ s.rast.state = .idle ∨ s.rast.y = s.rast.H ∨
      (rastOk s.rast ∧ imageProvided s.mem s.rast.img)) → ∃ t, exec i s = .next t

/-! ### Unreadable pixels, the host's duty step by step, CRC8 -/

/-- R68, U13: RAST_NEXT with a row left is stuck when a byte that the row reads is unreadable, and the fault names such a byte (log 4). -/
def Obligations.RastNextStopsOnAnUnreadablePixel : Prop :=
  ∀ (s : State) (C : Nat) (addr : Nat → Nat → Nat), s.rast.state = .active → s.rast.y ≠ s.rast.H →
    C = (match s.rast.img.format with | .gray8 => 1 | .rgb888 => 3) →
    (∀ x c, addr x c = s.rast.img.base +
      (s.rast.y.toNat * s.rast.img.height.toNat / s.rast.H.toNat * s.rast.img.width.toNat +
        x * s.rast.img.width.toNat / s.rast.W.toNat) * C + c) →
    (∃ x c, x < s.rast.W.toNat ∧ c < C ∧ s.mem.read? (addr x c) = none) →
    ∃ x c, x < s.rast.W.toNat ∧ c < C ∧ s.mem.read? (addr x c) = none ∧
      exec .rastNext s = .fault (.pixelOutsideBuffer (addr x c))

/-- R68, R70: from a state that meets the invariant, with the bound buffer readable and a next input that keeps the host's duty, the step answers a next state, and there the invariant holds and the bound buffer is readable again. How host memory and host writes are held is the model's (logs 4, 6). -/
def Obligations.StepKeepsTheBoundBufferReadable : Prop :=
  ∀ s : State, Inv s → boundBufferProvided s → nextKeepsDuty s →
    ∃ t, step s = .next t ∧ Inv t ∧ boundBufferProvided t

/-- R90: with CRC8 selected, taking in a byte is eight conditional shifts of acc XOR b, from 0 and with nothing done at the end; it is the remainder of (acc XOR b) x^8 on division by x^8 + x^2 + x + 1, whose coefficients are the bits of 0x107. -/
def Obligations.Crc8UpdateIsTheRemainder : Prop :=
  ∀ cfg : Cfg, cfg.checksumAlg = .crc8 →
    ckInit = 0 ∧ (∀ acc, ckFinal acc = acc) ∧
    (∀ f : Byte → Byte, (∀ a, f a = if a.getLsbD 7 then (a <<< 1) ^^^ 0x07 else a <<< 1) →
      ∀ acc b, ckUpdate cfg acc b = f (f (f (f (f (f (f (f (acc ^^^ b))))))))) ∧
    (∀ acc b, ∃ q : Byte, ((acc ^^^ b).setWidth 16 : Half) <<< 8 =
      (List.range 8).foldl (fun (p : Half) i => if q.getLsbD i then p ^^^ ((0x107 : Half) <<< i) else p) 0
        ^^^ (ckUpdate cfg acc b).setWidth 16)

/-! ### Status frames -/

/-- R127, R88, D47, U4: statusFrame(s) is R127's seven bytes, and DEC gives the report of s on the last of them and no event before, whatever bits 7:4 are; the reply that carries a report has bits 7:4 at 0 and decodes to that report, and is statusFrame(s) for every s with bits 7:4 at 0. Both forms stand because the spec's files differ (log 16). -/
def Obligations.StatusFrameDecodesToItsReport : Prop :=
  ∀ s : State, cfgValid s.cfg → s.dec.state = .awaitHeader →
    (∀ b : Byte,
      statusFrame s.cfg b = [s.cfg.opcStatusReport, 0x01, 0x00, b,
        ck s.cfg [s.cfg.opcStatusReport, 0x01, 0x00, b], s.cfg.term0, s.cfg.term1] ∧
      (∃ u, execDec (statusFrame s.cfg b) s = .next u ∧ u.dec.state = .awaitHeader ∧
        u = { s with dec := u.dec, decOut := s.decOut ++ [.status
          { paperPresent := !b.getLsbD 0, overTemperature := b.getLsbD 1,
            lowBattery := b.getLsbD 2, busy := b.getLsbD 3 }] }) ∧
      ∀ n, n < 7 → ∃ v, execDec ((statusFrame s.cfg b).take n) s = .next v ∧ v.decOut = s.decOut) ∧
    (∀ r : StatusReport,
      (∃ b : Byte, (replyFrame s.cfg r)[3]? = some b ∧ b >>> 4 = 0) ∧
      ∃ u, execDec (replyFrame s.cfg r) s = .next u ∧ u.decOut = s.decOut ++ [.status r] ∧ u.dec.state = .awaitHeader) ∧
    (∀ b : Byte, b >>> 4 = 0 → replyFrame s.cfg (statusOf b) = statusFrame s.cfg b)
end

