-- ==== Sys2Proof/Laws/Decode.lean ====
section
/-! SUPPORT. The 16-bit wire fields, the lengths of frames, and the rest of a decoded frame. -/

namespace Sys2Proof

theorem joinLE_toNat (lo hi : Byte) : (joinLE lo hi).toNat = lo.toNat + 256 * hi.toNat := by
  have h1 := lo.isLt
  have h2 := hi.isLt
  have key : lo.toNat ||| (hi.toNat <<< 8) = lo.toNat + 256 * hi.toNat := by
    rw [Nat.or_comm, ← Nat.shiftLeft_add_eq_or_of_lt (by omega : lo.toNat < 2 ^ 8), Nat.shiftLeft_eq]
    omega
  have hlo : lo.toNat % 2 ^ 16 = lo.toNat := Nat.mod_eq_of_lt (by omega)
  have hhi : hi.toNat % 2 ^ 16 = hi.toNat := Nat.mod_eq_of_lt (by omega)
  have hsh : (hi.toNat <<< 8) % 2 ^ 16 = hi.toNat <<< 8 := by
    rw [Nat.shiftLeft_eq]; exact Nat.mod_eq_of_lt (by omega)
  simp only [joinLE, BitVec.toNat_or, BitVec.toNat_setWidth, BitVec.toNat_shiftLeft, hlo, hhi, hsh, key]

theorem loByte_toNat (v : Half) : (loByte v).toNat = v.toNat % 256 := by simp [loByte]

theorem hiByte_toNat (v : Half) : (hiByte v).toNat = v.toNat / 256 := by
  have := v.isLt
  simp [hiByte, Nat.shiftRight_eq_div_pow]
  omega

@[simp] theorem joinLE_loByte_hiByte (v : Half) : joinLE (loByte v) (hiByte v) = v := by
  apply BitVec.eq_of_toNat_eq
  rw [joinLE_toNat, loByte_toNat, hiByte_toNat]
  omega

@[simp] theorem loByte_joinLE (lo hi : Byte) : loByte (joinLE lo hi) = lo := by
  apply BitVec.eq_of_toNat_eq
  have := lo.isLt
  rw [loByte_toNat, joinLE_toNat]
  omega

@[simp] theorem hiByte_joinLE (lo hi : Byte) : hiByte (joinLE lo hi) = hi := by
  apply BitVec.eq_of_toNat_eq
  have := lo.isLt
  rw [hiByte_toNat, joinLE_toNat]
  omega

/-- A legal length below 2^16 is written as its low and high byte (R82). -/
theorem loByte_ofNat (n : Nat) : loByte (BitVec.ofNat 16 n) = BitVec.ofNat 8 (n % 256) := by
  apply BitVec.eq_of_toNat_eq
  simp [loByte_toNat]

theorem hiByte_ofNat {n : Nat} (h : n < 65536) : hiByte (BitVec.ofNat 16 n) = BitVec.ofNat 8 (n / 256) := by
  apply BitVec.eq_of_toNat_eq
  rw [hiByte_toNat, BitVec.toNat_ofNat, BitVec.toNat_ofNat, Nat.mod_eq_of_lt (by omega : n < 2 ^ 16),
    Nat.mod_eq_of_lt (by omega : n / 256 < 2 ^ 8)]

/-- A well-formed frame is 6 + L bytes long (R81). -/
theorem frameBytes_length (cfg : Cfg) (k : Kind) {f : FrameFields} (h : f.wf = true) :
    (frameBytes cfg k f).length = 6 + f.len.toNat := by
  simp [FrameFields.wf] at h
  simp [frameBytes, FrameFields.tail, h]
  omega

theorem rxOf_bytes {l : List Byte} {b : Byte} {bs : List Byte} (h : rxOf l = some (.rx b bs)) : l = b :: bs := by
  cases l <;> simp_all [rxOf]

/-- A transaction that is not RX carries exactly one instruction. -/
theorem decode_rest_none {cfg : Cfg} {t : Transaction} (h : ∀ b bs, t ≠ .rx b bs) : (decode cfg t).2 = none := by
  cases t with
  | rx b bs => exact absurd rfl (h b bs)
  | rastCtl r => cases r <;> rfl
  | _ => rfl

end Sys2Proof
end

