-- ==== Sys2Proof/Laws/State.lean ====
section
/-! SUPPORT. Every field after every update of the state: one lemma each, true by definition. -/

namespace Sys2Proof.Machine

@[simp] theorem State.withCfg_cfg (s : State) (c : Cfg) : (s.withCfg c).cfg = c := rfl
@[simp] theorem State.withCfg_dec (s : State) (c : Cfg) : (s.withCfg c).dec = s.dec := rfl
@[simp] theorem State.withCfg_rast (s : State) (c : Cfg) : (s.withCfg c).rast = s.rast := rfl
@[simp] theorem State.withCfg_tx (s : State) (c : Cfg) : (s.withCfg c).tx = s.tx := rfl
@[simp] theorem State.withCfg_decOut (s : State) (c : Cfg) : (s.withCfg c).decOut = s.decOut := rfl
@[simp] theorem State.withCfg_rastOut (s : State) (c : Cfg) : (s.withCfg c).rastOut = s.rastOut := rfl
@[simp] theorem State.withCfg_cfgStatus (s : State) (c : Cfg) : (s.withCfg c).cfgStatus = s.cfgStatus := rfl
@[simp] theorem State.withCfg_encStatus (s : State) (c : Cfg) : (s.withCfg c).encStatus = s.encStatus := rfl
@[simp] theorem State.withCfg_mem (s : State) (c : Cfg) : (s.withCfg c).mem = s.mem := rfl
@[simp] theorem State.withCfg_inputs (s : State) (c : Cfg) : (s.withCfg c).inputs = s.inputs := rfl

@[simp] theorem State.withDec_cfg (s : State) (d : Dec) : (s.withDec d).cfg = s.cfg := rfl
@[simp] theorem State.withDec_dec (s : State) (d : Dec) : (s.withDec d).dec = d := rfl
@[simp] theorem State.withDec_rast (s : State) (d : Dec) : (s.withDec d).rast = s.rast := rfl
@[simp] theorem State.withDec_tx (s : State) (d : Dec) : (s.withDec d).tx = s.tx := rfl
@[simp] theorem State.withDec_decOut (s : State) (d : Dec) : (s.withDec d).decOut = s.decOut := rfl
@[simp] theorem State.withDec_rastOut (s : State) (d : Dec) : (s.withDec d).rastOut = s.rastOut := rfl
@[simp] theorem State.withDec_cfgStatus (s : State) (d : Dec) : (s.withDec d).cfgStatus = s.cfgStatus := rfl
@[simp] theorem State.withDec_encStatus (s : State) (d : Dec) : (s.withDec d).encStatus = s.encStatus := rfl
@[simp] theorem State.withDec_mem (s : State) (d : Dec) : (s.withDec d).mem = s.mem := rfl
@[simp] theorem State.withDec_inputs (s : State) (d : Dec) : (s.withDec d).inputs = s.inputs := rfl

@[simp] theorem State.withRast_cfg (s : State) (r : Rast) : (s.withRast r).cfg = s.cfg := rfl
@[simp] theorem State.withRast_dec (s : State) (r : Rast) : (s.withRast r).dec = s.dec := rfl
@[simp] theorem State.withRast_rast (s : State) (r : Rast) : (s.withRast r).rast = r := rfl
@[simp] theorem State.withRast_tx (s : State) (r : Rast) : (s.withRast r).tx = s.tx := rfl
@[simp] theorem State.withRast_decOut (s : State) (r : Rast) : (s.withRast r).decOut = s.decOut := rfl
@[simp] theorem State.withRast_rastOut (s : State) (r : Rast) : (s.withRast r).rastOut = s.rastOut := rfl
@[simp] theorem State.withRast_cfgStatus (s : State) (r : Rast) : (s.withRast r).cfgStatus = s.cfgStatus := rfl
@[simp] theorem State.withRast_encStatus (s : State) (r : Rast) : (s.withRast r).encStatus = s.encStatus := rfl
@[simp] theorem State.withRast_mem (s : State) (r : Rast) : (s.withRast r).mem = s.mem := rfl
@[simp] theorem State.withRast_inputs (s : State) (r : Rast) : (s.withRast r).inputs = s.inputs := rfl

@[simp] theorem State.withMem_cfg (s : State) (m : Memory) : (s.withMem m).cfg = s.cfg := rfl
@[simp] theorem State.withMem_dec (s : State) (m : Memory) : (s.withMem m).dec = s.dec := rfl
@[simp] theorem State.withMem_rast (s : State) (m : Memory) : (s.withMem m).rast = s.rast := rfl
@[simp] theorem State.withMem_tx (s : State) (m : Memory) : (s.withMem m).tx = s.tx := rfl
@[simp] theorem State.withMem_decOut (s : State) (m : Memory) : (s.withMem m).decOut = s.decOut := rfl
@[simp] theorem State.withMem_rastOut (s : State) (m : Memory) : (s.withMem m).rastOut = s.rastOut := rfl
@[simp] theorem State.withMem_cfgStatus (s : State) (m : Memory) : (s.withMem m).cfgStatus = s.cfgStatus := rfl
@[simp] theorem State.withMem_encStatus (s : State) (m : Memory) : (s.withMem m).encStatus = s.encStatus := rfl
@[simp] theorem State.withMem_mem (s : State) (m : Memory) : (s.withMem m).mem = m := rfl
@[simp] theorem State.withMem_inputs (s : State) (m : Memory) : (s.withMem m).inputs = s.inputs := rfl

@[simp] theorem State.withInputs_cfg (s : State) (l : List Input) : (s.withInputs l).cfg = s.cfg := rfl
@[simp] theorem State.withInputs_dec (s : State) (l : List Input) : (s.withInputs l).dec = s.dec := rfl
@[simp] theorem State.withInputs_rast (s : State) (l : List Input) : (s.withInputs l).rast = s.rast := rfl
@[simp] theorem State.withInputs_tx (s : State) (l : List Input) : (s.withInputs l).tx = s.tx := rfl
@[simp] theorem State.withInputs_decOut (s : State) (l : List Input) : (s.withInputs l).decOut = s.decOut := rfl
@[simp] theorem State.withInputs_rastOut (s : State) (l : List Input) : (s.withInputs l).rastOut = s.rastOut := rfl
@[simp] theorem State.withInputs_cfgStatus (s : State) (l : List Input) : (s.withInputs l).cfgStatus = s.cfgStatus := rfl
@[simp] theorem State.withInputs_encStatus (s : State) (l : List Input) : (s.withInputs l).encStatus = s.encStatus := rfl
@[simp] theorem State.withInputs_mem (s : State) (l : List Input) : (s.withInputs l).mem = s.mem := rfl
@[simp] theorem State.withInputs_inputs (s : State) (l : List Input) : (s.withInputs l).inputs = l := rfl

@[simp] theorem State.emitTx_cfg (s : State) (bytes : List Byte) : (s.emitTx bytes).cfg = s.cfg := rfl
@[simp] theorem State.emitTx_dec (s : State) (bytes : List Byte) : (s.emitTx bytes).dec = s.dec := rfl
@[simp] theorem State.emitTx_rast (s : State) (bytes : List Byte) : (s.emitTx bytes).rast = s.rast := rfl
@[simp] theorem State.emitTx_tx (s : State) (bytes : List Byte) : (s.emitTx bytes).tx = s.tx ++ bytes := rfl
@[simp] theorem State.emitTx_decOut (s : State) (bytes : List Byte) : (s.emitTx bytes).decOut = s.decOut := rfl
@[simp] theorem State.emitTx_rastOut (s : State) (bytes : List Byte) : (s.emitTx bytes).rastOut = s.rastOut := rfl
@[simp] theorem State.emitTx_cfgStatus (s : State) (bytes : List Byte) : (s.emitTx bytes).cfgStatus = s.cfgStatus := rfl
@[simp] theorem State.emitTx_encStatus (s : State) (bytes : List Byte) : (s.emitTx bytes).encStatus = s.encStatus := rfl
@[simp] theorem State.emitTx_mem (s : State) (bytes : List Byte) : (s.emitTx bytes).mem = s.mem := rfl
@[simp] theorem State.emitTx_inputs (s : State) (bytes : List Byte) : (s.emitTx bytes).inputs = s.inputs := rfl

@[simp] theorem State.emitDec_cfg (s : State) (evs : List DecEvent) : (s.emitDec evs).cfg = s.cfg := rfl
@[simp] theorem State.emitDec_dec (s : State) (evs : List DecEvent) : (s.emitDec evs).dec = s.dec := rfl
@[simp] theorem State.emitDec_rast (s : State) (evs : List DecEvent) : (s.emitDec evs).rast = s.rast := rfl
@[simp] theorem State.emitDec_tx (s : State) (evs : List DecEvent) : (s.emitDec evs).tx = s.tx := rfl
@[simp] theorem State.emitDec_decOut (s : State) (evs : List DecEvent) : (s.emitDec evs).decOut = s.decOut ++ evs := rfl
@[simp] theorem State.emitDec_rastOut (s : State) (evs : List DecEvent) : (s.emitDec evs).rastOut = s.rastOut := rfl
@[simp] theorem State.emitDec_cfgStatus (s : State) (evs : List DecEvent) : (s.emitDec evs).cfgStatus = s.cfgStatus := rfl
@[simp] theorem State.emitDec_encStatus (s : State) (evs : List DecEvent) : (s.emitDec evs).encStatus = s.encStatus := rfl
@[simp] theorem State.emitDec_mem (s : State) (evs : List DecEvent) : (s.emitDec evs).mem = s.mem := rfl
@[simp] theorem State.emitDec_inputs (s : State) (evs : List DecEvent) : (s.emitDec evs).inputs = s.inputs := rfl

@[simp] theorem State.emitRast_cfg (s : State) (ev : RastEvent) : (s.emitRast ev).cfg = s.cfg := rfl
@[simp] theorem State.emitRast_dec (s : State) (ev : RastEvent) : (s.emitRast ev).dec = s.dec := rfl
@[simp] theorem State.emitRast_rast (s : State) (ev : RastEvent) : (s.emitRast ev).rast = s.rast := rfl
@[simp] theorem State.emitRast_tx (s : State) (ev : RastEvent) : (s.emitRast ev).tx = s.tx := rfl
@[simp] theorem State.emitRast_decOut (s : State) (ev : RastEvent) : (s.emitRast ev).decOut = s.decOut := rfl
@[simp] theorem State.emitRast_rastOut (s : State) (ev : RastEvent) : (s.emitRast ev).rastOut = s.rastOut ++ [ev] := rfl
@[simp] theorem State.emitRast_cfgStatus (s : State) (ev : RastEvent) : (s.emitRast ev).cfgStatus = s.cfgStatus := rfl
@[simp] theorem State.emitRast_encStatus (s : State) (ev : RastEvent) : (s.emitRast ev).encStatus = s.encStatus := rfl
@[simp] theorem State.emitRast_mem (s : State) (ev : RastEvent) : (s.emitRast ev).mem = s.mem := rfl
@[simp] theorem State.emitRast_inputs (s : State) (ev : RastEvent) : (s.emitRast ev).inputs = s.inputs := rfl

@[simp] theorem State.emitCfgStatus_cfg (s : State) (e : ErrorEvent) : (s.emitCfgStatus e).cfg = s.cfg := rfl
@[simp] theorem State.emitCfgStatus_dec (s : State) (e : ErrorEvent) : (s.emitCfgStatus e).dec = s.dec := rfl
@[simp] theorem State.emitCfgStatus_rast (s : State) (e : ErrorEvent) : (s.emitCfgStatus e).rast = s.rast := rfl
@[simp] theorem State.emitCfgStatus_tx (s : State) (e : ErrorEvent) : (s.emitCfgStatus e).tx = s.tx := rfl
@[simp] theorem State.emitCfgStatus_decOut (s : State) (e : ErrorEvent) : (s.emitCfgStatus e).decOut = s.decOut := rfl
@[simp] theorem State.emitCfgStatus_rastOut (s : State) (e : ErrorEvent) : (s.emitCfgStatus e).rastOut = s.rastOut := rfl
@[simp] theorem State.emitCfgStatus_cfgStatus (s : State) (e : ErrorEvent) : (s.emitCfgStatus e).cfgStatus = s.cfgStatus ++ [e] := rfl
@[simp] theorem State.emitCfgStatus_encStatus (s : State) (e : ErrorEvent) : (s.emitCfgStatus e).encStatus = s.encStatus := rfl
@[simp] theorem State.emitCfgStatus_mem (s : State) (e : ErrorEvent) : (s.emitCfgStatus e).mem = s.mem := rfl
@[simp] theorem State.emitCfgStatus_inputs (s : State) (e : ErrorEvent) : (s.emitCfgStatus e).inputs = s.inputs := rfl

@[simp] theorem State.emitEncStatus_cfg (s : State) (e : ErrorEvent) : (s.emitEncStatus e).cfg = s.cfg := rfl
@[simp] theorem State.emitEncStatus_dec (s : State) (e : ErrorEvent) : (s.emitEncStatus e).dec = s.dec := rfl
@[simp] theorem State.emitEncStatus_rast (s : State) (e : ErrorEvent) : (s.emitEncStatus e).rast = s.rast := rfl
@[simp] theorem State.emitEncStatus_tx (s : State) (e : ErrorEvent) : (s.emitEncStatus e).tx = s.tx := rfl
@[simp] theorem State.emitEncStatus_decOut (s : State) (e : ErrorEvent) : (s.emitEncStatus e).decOut = s.decOut := rfl
@[simp] theorem State.emitEncStatus_rastOut (s : State) (e : ErrorEvent) : (s.emitEncStatus e).rastOut = s.rastOut := rfl
@[simp] theorem State.emitEncStatus_cfgStatus (s : State) (e : ErrorEvent) : (s.emitEncStatus e).cfgStatus = s.cfgStatus := rfl
@[simp] theorem State.emitEncStatus_encStatus (s : State) (e : ErrorEvent) : (s.emitEncStatus e).encStatus = s.encStatus ++ [e] := rfl
@[simp] theorem State.emitEncStatus_mem (s : State) (e : ErrorEvent) : (s.emitEncStatus e).mem = s.mem := rfl
@[simp] theorem State.emitEncStatus_inputs (s : State) (e : ErrorEvent) : (s.emitEncStatus e).inputs = s.inputs := rfl

end Sys2Proof.Machine
end

