-- ==== Sys2Proof/Laws/Memory.lean ====
section
/-! SUPPORT. Memory cells: a read after a write, the canonical form, and BUF over them. -/

namespace Sys2Proof.Machine

theorem Memory.read?_write_same (m : Memory) (a : Nat) (b : Byte) : (Memory.write m a b).read? a = some b := by
  induction m with
  | nil => simp [Memory.write, Memory.read?]
  | cons x rest ih =>
    obtain ⟨k, v⟩ := x
    unfold Memory.write
    split
    · simp [Memory.read?]
    · split
      · simp [Memory.read?]
      · rename_i h1 h2
        simp [Memory.read?, Ne.symm h2, ih]

theorem Memory.read?_write_other (m : Memory) {a c : Nat} (b : Byte) (h : c ≠ a) :
    (Memory.write m a b).read? c = m.read? c := by
  induction m with
  | nil => simp [Memory.write, Memory.read?, Ne.symm h]
  | cons x rest ih =>
    obtain ⟨k, v⟩ := x
    unfold Memory.write
    split
    · simp [Memory.read?, Ne.symm h]
    · split
      · rename_i h1 h2
        subst h2
        simp [Memory.read?, Ne.symm h]
      · simp [Memory.read?, ih]

theorem Memory.read?_write (m : Memory) (a c : Nat) (b : Byte) :
    (Memory.write m a b).read? c = if c = a then some b else m.read? c := by
  split
  · subst_vars; exact Memory.read?_write_same _ _ _
  · exact Memory.read?_write_other _ _ ‹_›

/-- The addresses a write leaves listed: those listed before, and the one written. -/
theorem Memory.mem_write {m : Memory} {a : Nat} {b : Byte} {x : Host.Cell} (h : x ∈ Memory.write m a b) :
    x.1 = a ∨ x ∈ m := by
  induction m with
  | nil => simp_all [Memory.write]
  | cons y rest ih =>
    obtain ⟨k, v⟩ := y
    unfold Memory.write at h
    split at h
    · simp only [List.mem_cons] at h ⊢
      rcases h with h | h
      · exact .inl (by rw [h])
      · exact .inr h
    · split at h
      · simp only [List.mem_cons] at h ⊢
        rcases h with h | h
        · exact .inl (by rw [h])
        · exact .inr (.inr h)
      · simp only [List.mem_cons] at h ⊢
        rcases h with h | h
        · exact .inr (.inl h)
        · rcases ih h with h | h
          · exact .inl h
          · exact .inr (.inr h)

/-- A write keeps the canonical form. -/
theorem Memory.wf_write {m : Memory} (h : m.wf) (a : Nat) (b : Byte) : (Memory.write m a b).wf := by
  induction m with
  | nil => simp [Memory.write]
  | cons y rest ih =>
    obtain ⟨k, v⟩ := y
    obtain ⟨hk, hr⟩ := List.pairwise_cons.mp h
    unfold Memory.write
    split
    · rename_i hlt
      refine List.pairwise_cons.mpr ⟨?_, h⟩
      intro x hx
      rcases List.mem_cons.mp hx with hx | hx
      · rw [hx]; exact hlt
      · exact Nat.lt_trans hlt (hk x hx)
    · split
      · rename_i h1 h2
        subst h2
        exact List.pairwise_cons.mpr ⟨fun x hx => hk x hx, hr⟩
      · rename_i h1 h2
        refine List.pairwise_cons.mpr ⟨?_, ih hr⟩
        intro x hx
        rcases Memory.mem_write hx with hx | hx
        · simp only [hx]; omega
        · exact hk x hx

theorem Memory.wf_reset : State.reset.mem.wf := by simp [State.reset]

/-! ### BUF -/

@[simp] theorem bufWrite_state (d : Dec) (i : Nat) (b : Byte) : (bufWrite d i b).state = d.state := by
  unfold bufWrite; split <;> rfl
@[simp] theorem bufWrite_kind (d : Dec) (i : Nat) (b : Byte) : (bufWrite d i b).kind = d.kind := by
  unfold bufWrite; split <;> rfl
@[simp] theorem bufWrite_lenLo (d : Dec) (i : Nat) (b : Byte) : (bufWrite d i b).lenLo = d.lenLo := by
  unfold bufWrite; split <;> rfl
@[simp] theorem bufWrite_len (d : Dec) (i : Nat) (b : Byte) : (bufWrite d i b).len = d.len := by
  unfold bufWrite; split <;> rfl
@[simp] theorem bufWrite_count (d : Dec) (i : Nat) (b : Byte) : (bufWrite d i b).count = d.count := by
  unfold bufWrite; split <;> rfl
@[simp] theorem bufWrite_acc (d : Dec) (i : Nat) (b : Byte) : (bufWrite d i b).acc = d.acc := by
  unfold bufWrite; split <;> rfl
@[simp] theorem bufWrite_bufEpoch (d : Dec) (i : Nat) (b : Byte) : (bufWrite d i b).bufEpoch = d.bufEpoch := by
  unfold bufWrite; split <;> rfl

/-- A write of an index that BUF has changes that entry alone. -/
theorem bufWrite_read? {d : Dec} {i : Nat} (h : i < bufSize) (b : Byte) (j : Nat) :
    (bufWrite d i b).buf.read? j = if j = i then some b else d.buf.read? j := by
  simp [bufWrite, h, Memory.read?_write]

theorem bufWrite_wf {d : Dec} (h : d.buf.wf) (i : Nat) (b : Byte) : (bufWrite d i b).buf.wf := by
  unfold bufWrite
  split
  · exact Memory.wf_write h i b
  · exact h

/-- BUF lists only indices that it has. -/
theorem bufWrite_bounded {d : Dec} (h : ∀ x ∈ d.buf, x.1 < bufSize) (i : Nat) (b : Byte) :
    ∀ x ∈ (bufWrite d i b).buf, x.1 < bufSize := by
  intro x hx
  unfold bufWrite at hx
  split at hx
  · rcases Memory.mem_write hx with hx | hx
    · omega
    · exact h x hx
  · exact h x hx

/-- Reading BUF looks only at the entry and the epoch. -/
theorem bufRead_congr {d e : Dec} {i : Nat} (hb : d.buf.read? i = e.buf.read? i) (he : d.bufEpoch = e.bufEpoch) :
    bufRead d i = bufRead e i := by
  simp [bufRead, hb, he]

theorem bufPayload_length (d : Dec) : (bufPayload d).length = d.len.toNat := by simp [bufPayload]

end Sys2Proof.Machine
end

