-- ==== Sys2Proof/Laws/Ops.lean ====
section
/-! SUPPORT. One lemma for each shared operation: all it can do. -/

namespace Sys2Proof.Machine

/-! ### Taking an error -/

/-- Taking an error leaves the configuration, TX, the host's memory and the pending inputs alone. -/
theorem raiseError_frame (e : ErrorEvent) (s : State) :
    (raiseError e s).cfg = s.cfg ∧ (raiseError e s).tx = s.tx ∧ (raiseError e s).mem = s.mem ∧
      (raiseError e s).inputs = s.inputs := by
  cases e <;> simp [raiseError, takeDecResult]

/-! ### The status byte -/

/-- The status byte of a report is read back as the report. -/
@[simp] theorem statusOf_statusByte (r : StatusReport) : statusOf (statusByte r) = r := by
  obtain ⟨p, o, l, b⟩ := r
  cases p <;> cases o <;> cases l <;> cases b <;> decide

/-- The status byte of a report has its reserved bits at 0. -/
theorem statusByte_reserved (r : StatusReport) : statusByte r >>> 4 = 0 := by
  obtain ⟨p, o, l, b⟩ := r
  cases p <;> cases o <;> cases l <;> cases b <;> decide

/-- A status byte whose reserved bits are 0 is the status byte of its report. -/
theorem statusByte_statusOf {s : Byte} (h : s >>> 4 = 0) : statusByte (statusOf s) = s := by
  revert s
  decide +kernel

/-! ### Received bytes -/

/-- The decoder's registers after some bytes, and the events they give. -/
def decBytes (cfg : Cfg) : List Byte → Dec → Dec × List DecEvent
  | [], d => (d, [])
  | b :: bs, d =>
    let r := decStep cfg d b
    let q := decBytes cfg bs r.1
    (q.1, r.2.toList ++ q.2)

theorem decBytes_append (cfg : Cfg) (xs ys : List Byte) (d : Dec) :
    decBytes cfg (xs ++ ys) d =
      ((decBytes cfg ys (decBytes cfg xs d).1).1, (decBytes cfg xs d).2 ++ (decBytes cfg ys (decBytes cfg xs d).1).2) := by
  induction xs generalizing d with
  | nil => simp [decBytes]
  | cons b bs ih => simp [decBytes, ih]

/-- Received bytes change the decoder's registers and DEC_OUT, and nothing else. -/
theorem receiveBytes_eq (bs : List Byte) (s : State) :
    receiveBytes bs s = (s.withDec (decBytes s.cfg bs s.dec).1).emitDec (decBytes s.cfg bs s.dec).2 := by
  induction bs generalizing s with
  | nil => cases s; simp [receiveBytes, decBytes, State.withDec, State.emitDec]
  | cons b bs ih =>
    simp only [receiveBytes, ih, receiveByte, takeDecResult, decBytes]
    cases s
    simp [State.withDec, State.emitDec]

/-- DEC_BYTE operations one after the other are the received bytes. -/
theorem execDec_eq (bs : List Byte) (s : State) : execDec bs s = .next (receiveBytes bs s) := by
  induction bs generalizing s with
  | nil => rfl
  | cons b bs ih => exact ih (receiveByte b s)

theorem execAll_append (is js : List Instr) {s t : State} (h : execAll is s = .next t) :
    execAll (is ++ js) s = execAll js t := by
  induction is generalizing s with
  | nil => cases h; rfl
  | cons i is ih =>
    simp only [execAll, List.cons_append] at h ⊢
    split at h
    · rename_i u hu
      simp only [ih h]
    · simp at h
    · simp at h

/-! ### Reading in order -/

/-- `collect` answers a list exactly when every element is answered, in order. -/
theorem collect_ok {α : Type} {f : Nat → Except Fault α} {g : Nat → α} (n x : Nat)
    (h : ∀ i, x ≤ i → i < x + n → f i = .ok (g i)) :
    collect f x n = .ok ((List.range' x n).map g) := by
  induction n generalizing x with
  | zero => rfl
  | succ n ih =>
    simp [collect, h x (Nat.le_refl x) (by omega), ih (x + 1) (fun i h1 h2 => h i (by omega) (by omega)),
      List.range'_succ]

/-- The fault of `collect` is the fault of one of its elements. -/
theorem collect_error {α : Type} {f : Nat → Except Fault α} {n x : Nat} {e : Fault} (h : collect f x n = .error e) :
    ∃ i, x ≤ i ∧ i < x + n ∧ f i = .error e := by
  induction n generalizing x with
  | zero => simp [collect] at h
  | succ n ih =>
    unfold collect at h
    split at h
    · rename_i e' he
      cases h
      exact ⟨x, Nat.le_refl x, by omega, he⟩
    · split at h
      · rename_i e' he
        cases h
        obtain ⟨i, h1, h2, h3⟩ := ih he
        exact ⟨i, by omega, by omega, h3⟩
      · simp at h

/-- `collect` stops when one of its elements does. -/
theorem collect_stops {α : Type} {f : Nat → Except Fault α} {n x i : Nat} {e : Fault} (h1 : x ≤ i) (h2 : i < x + n)
    (h : f i = .error e) : ∃ e', collect f x n = .error e' := by
  induction n generalizing x with
  | zero => omega
  | succ n ih =>
    unfold collect
    cases hx : f x with
    | error e' => exact ⟨e', rfl⟩
    | ok v =>
      have hne : x ≠ i := fun he => by rw [he, h] at hx; cases hx
      obtain ⟨e', he'⟩ := ih (x := x + 1) (by omega) (by omega)
      exact ⟨e', by simp [he']⟩

theorem collect_congr {α : Type} {f g : Nat → Except Fault α} (n x : Nat)
    (h : ∀ i, x ≤ i → i < x + n → f i = g i) : collect f x n = collect g x n := by
  induction n generalizing x with
  | zero => rfl
  | succ n ih =>
    simp [collect, h x (Nat.le_refl x) (by omega), ih (x + 1) (fun i h1 h2 => h i (by omega) (by omega))]

/-- The only fault of a pixel read is an offset that holds no byte. -/
theorem memByte_error {m : Memory} {a : Nat} {e : Fault} (h : memByte m a = .error e) :
    m.read? a = none ∧ e = .pixelOutsideBuffer a := by
  unfold memByte at h
  split at h
  · simp at h
  · rename_i hn
    cases h
    exact ⟨hn, rfl⟩

/-- A packed row has `ceil(W / 8)` bytes (R208). -/
theorem packRow_length (W : Nat) (dots : List Bool) : (packRow W dots).length = ceilDiv W 8 := by simp [packRow]

/-- A host offset lies in the bound buffer exactly when a conversion runs and the offset is in its range (R70). -/
theorem inBoundBuffer_iff {r : Rast} {a : Nat} :
    inBoundBuffer r a = true ↔ r.state = .active ∧ r.img.base ≤ a ∧ a < r.img.base + imageBytes r.img := by
  simp [inBoundBuffer]

/-- A run of `n + 1` steps is one step and a run of `n`. -/
theorem core_run_succ (n : Nat) (s : State) :
    Sys2Proof.core.run (n + 1) s = match step s with
      | .next t => Sys2Proof.core.run n t
      | .fault f => .fault f
      | .refused r => .refused r := by
  cases h : step s <;> simp [Host.Core.run, core, h]

theorem nextKeepsDuty_cons {s : State} {x : Input} {later : List Input} (h : s.inputs = x :: later) :
    nextKeepsDuty s ↔ inputKeepsDuty s x := by simp [nextKeepsDuty, h]

/-- With nothing pending the host owes nothing. -/
theorem hostKeepsDuty_nil {s : State} (h : s.inputs = []) : hostKeepsDuty s := by
  intro n t
  induction n with
  | zero => rintro ⟨⟩ x later hx; simp [h] at hx
  | succ n ih => rw [core_run_succ]; simpa [step, h] using ih

/-- The host keeps its duty exactly when its next input does, and the later ones do after the step. -/
theorem hostKeepsDuty_step {s : State} :
    hostKeepsDuty s ↔ nextKeepsDuty s ∧ ∀ t, step s = .next t → hostKeepsDuty t := by
  constructor
  · intro h
    refine ⟨h 0 s rfl, fun t ht n u hu => h (n + 1) u ?_⟩
    rw [core_run_succ, ht]
    exact hu
  · rintro ⟨h0, h1⟩ n u hu
    cases n with
    | zero => cases hu; exact h0
    | succ n =>
      rw [core_run_succ] at hu
      cases hs : step s with
      | next t => rw [hs] at hu; exact h1 t hs n u hu
      | fault f => rw [hs] at hu; cases hu
      | refused r => rw [hs] at hu; cases hu

end Sys2Proof.Machine
end

