-- ==== Sys2Proof/Laws/Decoder.lean ====
section
/-! SUPPORT. What a run of payload bytes does to the decoder, and what the steps of the decoder never touch. -/

namespace Sys2Proof.Machine

/-- A payload byte, with its count in range: the entry, the checksum and the count; the state follows the count (R164). -/
theorem decStep_payload {cfg : Cfg} {d : Dec} (b : Byte) (hs : d.state = .awaitPayload)
    (hc : d.count.toNat < d.len.toNat) :
    decStep cfg d b =
      ({ d with
          buf := d.buf.write d.count.toNat b, acc := ckUpdate cfg d.acc b, count := d.count + 1,
          state := if d.count.toNat + 1 = d.len.toNat then .awaitChecksum else .awaitPayload }, none) := by
  have hl := d.len.isLt
  have hb : d.count.toNat < bufSize := by unfold bufSize; omega
  have hn : (d.count + 1).toNat = d.count.toNat + 1 := by
    rw [BitVec.toNat_add]; simp; omega
  have he : d.count + 1 = d.len ↔ d.count.toNat + 1 = d.len.toNat := by
    rw [← hn]; exact ⟨fun e => by rw [e], BitVec.eq_of_toNat_eq⟩
  by_cases h : d.count.toNat + 1 = d.len.toNat
  · have heq : d.count + 1#16 = d.len := he.mpr h
    simp [decStep, hs, bufWrite, hb, h, heq]
  · have hne : ¬ d.count + 1#16 = d.len := fun e => h (he.mp e)
    simp [decStep, hs, bufWrite, hb, h, hne]

/-- The count after one payload byte. -/
theorem count_succ_toNat {d : Dec} (hc : d.count.toNat < d.len.toNat) : (d.count + 1).toNat = d.count.toNat + 1 := by
  have hl := d.len.isLt
  rw [BitVec.toNat_add]; simp; omega

/-- The payload bytes of a frame, up to the last: what BUF, the checksum and the state are after them (R164). -/
theorem decBytes_payload {cfg : Cfg} (p : List Byte) {d : Dec} (hs : d.state = .awaitPayload) (hp : p ≠ [])
    (hc : d.count.toNat + p.length ≤ d.len.toNat) :
    (decBytes cfg p d).2 = [] ∧
    (decBytes cfg p d).1.state
      = (if d.count.toNat + p.length = d.len.toNat then .awaitChecksum else .awaitPayload) ∧
    (decBytes cfg p d).1.count.toNat = d.count.toNat + p.length ∧
    (decBytes cfg p d).1.acc = p.foldl (ckUpdate cfg) d.acc ∧
    (decBytes cfg p d).1.kind = d.kind ∧ (decBytes cfg p d).1.len = d.len ∧
    (∀ i, (decBytes cfg p d).1.buf.read? i =
      if d.count.toNat ≤ i ∧ i < d.count.toNat + p.length then p[i - d.count.toNat]? else d.buf.read? i) := by
  induction p generalizing d with
  | nil => exact absurd rfl hp
  | cons b bs ih =>
    simp only [List.length_cons] at hc
    have hlt : d.count.toNat < d.len.toNat := by omega
    have hn := count_succ_toNat hlt
    simp only [decBytes, decStep_payload b hs hlt]
    cases bs with
    | nil =>
      refine ⟨rfl, rfl, hn, rfl, rfl, rfl, fun i => ?_⟩
      simp only [decBytes, Memory.read?_write, List.length_cons, List.length_nil]
      by_cases hi : i = d.count.toNat
      · simp [hi]
      · rw [if_neg hi, if_neg (by omega)]
    | cons c cs =>
      simp only [List.length_cons] at hc
      have hne : ¬ d.count.toNat + 1 = d.len.toNat := by omega
      simp only [hne, if_false]
      obtain ⟨h1, h2, h3, h4, h5, h6, h7⟩ := @ih
        { d with buf := d.buf.write d.count.toNat b, acc := ckUpdate cfg d.acc b, count := d.count + 1,
                 state := .awaitPayload } rfl (by simp) (by simp only [hn, List.length_cons]; omega)
      simp only [hn, List.length_cons] at h2 h3 h7 ⊢
      refine ⟨by simpa using h1, ?_, by rw [h3]; omega, by rw [h4]; rfl, h5, h6, fun i => ?_⟩
      · rw [h2]
        have : (d.count.toNat + 1 + (cs.length + 1) = d.len.toNat) = (d.count.toNat + (cs.length + 1 + 1) = d.len.toNat) := by
          rw [show d.count.toNat + 1 + (cs.length + 1) = d.count.toNat + (cs.length + 1 + 1) by omega]
        simp only [this]
      · rw [h7 i]
        by_cases hi : i = d.count.toNat
        · subst hi
          rw [if_neg (by omega), if_pos (by omega), Memory.read?_write, if_pos rfl]
          simp
        · by_cases hr : d.count.toNat + 1 ≤ i ∧ i < d.count.toNat + 1 + (cs.length + 1)
          · rw [if_pos hr, if_pos (by omega), show i - d.count.toNat = (i - (d.count.toNat + 1)) + 1 by omega]
            simp
          · rw [if_neg hr, if_neg (by omega), Memory.read?_write, if_neg hi]

/-- A byte never changes the epoch of BUF (log 3). -/
theorem decStep_bufEpoch (cfg : Cfg) (d : Dec) (b : Byte) : (decStep cfg d b).1.bufEpoch = d.bufEpoch := by
  unfold decStep
  cases d.state with
  | awaitHeader => simp only []; split <;> rfl
  | awaitLength0 => rfl
  | awaitLength1 => simp only []; split; · rfl
                    split <;> rfl
  | awaitPayload => simp only []; split <;> simp
  | awaitChecksum => simp only []; split <;> rfl
  | awaitTerminator0 => simp only []; split <;> rfl
  | awaitTerminator1 => simp only []; split <;> rfl

/-- An error event of the decoder always leaves it in AwaitHeader, as every event does (R167, R169). -/
theorem decStep_event {cfg : Cfg} {d : Dec} {b : Byte} {ev : DecEvent} (h : (decStep cfg d b).2 = some ev) :
    (decStep cfg d b).1.state = .awaitHeader := by
  unfold decStep at h ⊢
  cases hs : d.state with
  | awaitHeader => simp only [hs] at h ⊢; split at h <;> cases h
  | awaitLength0 => simp only [hs] at h; cases h
  | awaitLength1 =>
    simp only [hs] at h ⊢
    split
    · rfl
    · rename_i hn
      rw [if_neg hn] at h
      split at h <;> cases h
  | awaitPayload => simp only [hs] at h; split at h <;> cases h
  | awaitChecksum =>
    simp only [hs] at h ⊢
    split
    · rfl
    · rename_i hn
      rw [if_neg hn] at h; cases h
  | awaitTerminator0 =>
    simp only [hs] at h ⊢
    split
    · rfl
    · rename_i hn
      rw [if_neg hn] at h; cases h
  | awaitTerminator1 =>
    simp only []
    split <;> rfl

end Sys2Proof.Machine
end

