-- ==== Sys2Proof/Laws/Exec.lean ====
section
/-! SUPPORT. Once for each unit: what its instructions read and write. A statement about all instructions of a unit cites these lemmas. -/

namespace Sys2Proof.Machine

/-- An instruction of DEC reads CFG and DEC and writes DEC and DEC_OUT. -/
theorem exec_dec_unit {i : Instr} (h : unitOf i = .dec) :
    ∃ f : Cfg → Dec → Dec × List DecEvent,
      ∀ s, exec i s = .next ((s.withDec (f s.cfg s.dec).1).emitDec (f s.cfg s.dec).2) := by
  cases i with
  | print g => exact ⟨fun c => decBytes c (frameBytes c .print g), fun s => congrArg _ (receiveBytes_eq _ s)⟩
  | feed g => exact ⟨fun c => decBytes c (frameBytes c .feed g), fun s => congrArg _ (receiveBytes_eq _ s)⟩
  | setHeat g => exact ⟨fun c => decBytes c (frameBytes c .setHeat g), fun s => congrArg _ (receiveBytes_eq _ s)⟩
  | queryStatus g => exact ⟨fun c => decBytes c (frameBytes c .queryStatus g), fun s => congrArg _ (receiveBytes_eq _ s)⟩
  | reset g => exact ⟨fun c => decBytes c (frameBytes c .reset g), fun s => congrArg _ (receiveBytes_eq _ s)⟩
  | statusReport g => exact ⟨fun c => decBytes c (frameBytes c .statusReport g), fun s => congrArg _ (receiveBytes_eq _ s)⟩
  | decClear =>
    exact ⟨fun _ d => ({ d with state := .awaitHeader }, []), fun s => by
      simp [exec, execDecClear, State.withDec, State.emitDec]⟩
  | decByte b => exact ⟨fun c => decBytes c [b], fun s => congrArg _ (receiveBytes_eq [b] s)⟩
  | cfgLoad _ => cases h
  | enc _ => cases h
  | rastStart _ _ _ => cases h
  | rastNext => cases h
  | rastRestart => cases h

/-- An instruction of ENC reads CFG and appends to TX or to ENC_STATUS, one error at most and then no byte. -/
theorem exec_enc_unit {i : Instr} (h : unitOf i = .enc) :
    ∃ (f : Cfg → List Byte) (g : Cfg → List ErrorEvent), (∀ c, (g c).length ≤ 1) ∧ (∀ c, g c ≠ [] → f c = []) ∧
      ∀ s, exec i s = .next { s with tx := s.tx ++ f s.cfg, encStatus := s.encStatus ++ g s.cfg } := by
  cases i with
  | enc cmd =>
    refine ⟨fun c => if encValid c cmd then frameOf c (commandKind cmd) (commandPayload cmd) else [],
      fun c => if encValid c cmd then [] else [.encodeInvalid (commandKind cmd)], ?_, ?_, ?_⟩
    · intro c
      by_cases hv : encValid c cmd = true <;> simp [hv]
    · intro c
      by_cases hv : encValid c cmd = true <;> simp [hv]
    · intro s
      by_cases hv : encValid s.cfg cmd = true <;>
        simp [exec, execEnc, hv, State.emitTx, raiseError, State.emitEncStatus]
  | print _ => cases h
  | feed _ => cases h
  | setHeat _ => cases h
  | queryStatus _ => cases h
  | reset _ => cases h
  | statusReport _ => cases h
  | cfgLoad _ => cases h
  | decClear => cases h
  | decByte _ => cases h
  | rastStart _ _ _ => cases h
  | rastNext => cases h
  | rastRestart => cases h

/-- RAST_NEXT on RAST's registers and the host's memory: the registers after it and its event. -/
def rastNextResult (m : Memory) (r : Rast) : Except Fault (Rast × RastEvent) :=
  match r.state with
  | .idle => .ok (r, .error .rastIdle)
  | .active =>
    if r.y = r.H then .ok (r, .endOfRows)
    else
      match rastRow m r r.y.toNat with
      | .error e => .error e
      | .ok row => .ok ({ r with y := r.y + 1 }, .row row)

theorem execRastNext_eq (s : State) :
    exec .rastNext s =
      match rastNextResult s.mem s.rast with
      | .error e => .fault e
      | .ok (r, ev) => .next { s with rast := r, rastOut := s.rastOut ++ [ev] } := by
  simp only [exec, execRastNext, rastNextResult]
  cases s.rast.state with
  | idle => rfl
  | active =>
    simp only []
    split
    · rfl
    · cases rastRow s.mem s.rast s.rast.y.toNat <;> rfl

/-- An instruction of RAST reads RAST and the host's memory and writes RAST and RAST_OUT, one event at most, or is stuck. -/
theorem exec_rast_unit {i : Instr} (h : unitOf i = .rast) :
    ∃ f : Memory → Rast → Except Fault (Rast × List RastEvent),
      (∀ m r q, f m r = .ok q → q.2.length ≤ 1) ∧
      ∀ s, exec i s =
        match f s.mem s.rast with
        | .error e => .fault e
        | .ok (r, evs) => .next { s with rast := r, rastOut := s.rastOut ++ evs } := by
  cases i with
  | rastStart img w d =>
    refine ⟨fun _ r =>
      if img.width = 0 ∨ img.height = 0 ∨ w = 0 then
        .ok ({ r with state := .idle }, [.error (.invalidImage img.width img.height w)])
      else if 2 ^ 32 ≤ outHeight img.width.toNat img.height.toNat w.toNat then
        .ok ({ r with state := .idle }, [.error (.invalidImage img.width img.height w)])
      else
        .ok ({ state := .active, img := img, W := w,
               H := BitVec.ofNat 32 (outHeight img.width.toNat img.height.toNat w.toNat), dither := d, y := 0 }, []), ?_, ?_⟩
    · intro m r q hq
      simp only [] at hq
      split at hq
      · cases hq; simp
      · split at hq
        · cases hq; simp
        · cases hq; simp
    · intro s
      simp only [exec, execRastStart]
      split
      · rfl
      · split
        · rfl
        · simp [State.withRast]
  | rastNext =>
    refine ⟨fun m r =>
      match rastNextResult m r with
      | .error e => .error e
      | .ok (r', ev) => .ok (r', [ev]), ?_, ?_⟩
    · intro m r q hq
      simp only [] at hq
      split at hq
      · cases hq
      · cases hq; simp
    · intro s
      rw [execRastNext_eq]
      simp only []
      cases rastNextResult s.mem s.rast <;> rfl
  | rastRestart =>
    refine ⟨fun _ r =>
      match r.state with
      | .idle => .ok (r, [.error .rastIdle])
      | .active => .ok ({ r with y := 0 }, []), ?_, ?_⟩
    · intro m r q hq
      simp only [] at hq
      split at hq <;> (cases hq; simp)
    · intro s
      simp only [exec, execRastRestart]
      cases s.rast.state with
      | idle => rfl
      | active => simp [State.withRast]
  | print _ => cases h
  | feed _ => cases h
  | setHeat _ => cases h
  | queryStatus _ => cases h
  | reset _ => cases h
  | statusReport _ => cases h
  | cfgLoad _ => cases h
  | decClear => cases h
  | enc _ => cases h
  | decByte _ => cases h

/-- CFG_LOAD writes CFG and DEC, or appends one error to CFG_STATUS. -/
theorem exec_cfg_unit {i : Instr} (h : unitOf i = .cfg) :
    ∃ f : Cfg → Dec → Cfg × Dec × List ErrorEvent, (∀ c d, (f c d).2.2.length ≤ 1) ∧
      ∀ s, exec i s = .next { s with
        cfg := (f s.cfg s.dec).1, dec := (f s.cfg s.dec).2.1, cfgStatus := s.cfgStatus ++ (f s.cfg s.dec).2.2 } := by
  cases i with
  | cfgLoad r =>
    refine ⟨fun c d =>
      match firstFailingCheck r with
      | some n => (c, d, [.configInvalid n])
      | none => (cfgOf r, { d with state := .awaitHeader }, []), ?_, ?_⟩
    · intro c d
      cases hf : firstFailingCheck r <;> simp
    · intro s
      simp only [exec, execCfgLoad]
      cases firstFailingCheck r <;> simp [State.withCfg, State.withDec, raiseError, State.emitCfgStatus]
  | print _ => cases h
  | feed _ => cases h
  | setHeat _ => cases h
  | queryStatus _ => cases h
  | reset _ => cases h
  | statusReport _ => cases h
  | decClear => cases h
  | enc _ => cases h
  | decByte _ => cases h
  | rastStart _ _ _ => cases h
  | rastNext => cases h
  | rastRestart => cases h

end Sys2Proof.Machine
end

