-- ==== Sys2Proof/Laws/PerInstr.lean ====
section
/-! SUPPORT. The statements made per instruction: decoding what an instruction is encoded as gives it back, with nothing left over. -/

namespace Sys2Proof.Laws.RoundTrip

/-- Under six distinct opcodes, a well-formed instruction is read back from its transaction (30_encoding.md rules R80 to R83, R96). -/
def Statement (i : Instr) : Prop :=
  ∀ cfg : Cfg, cfg.opcodes.Nodup → i.wf = true → decode cfg (encode cfg i) = (i, none)

/-- The lookup of an opcode register's own value, under distinct opcodes (10_state.md rule R32). -/
theorem kindOf_own {cfg : Cfg} (h : cfg.opcodes.Nodup) (k : Kind) : kindOf cfg (opcodeOf cfg k) = some k := by
  simp only [Cfg.opcodes, List.nodup_cons, List.mem_cons, List.not_mem_nil, or_false, not_or] at h
  obtain ⟨⟨a1, a2, a3, a4, a5⟩, ⟨b1, b2, b3, b4⟩, ⟨c1, c2, c3⟩, ⟨d1, d2⟩, e1, -⟩ := h
  cases k <;> simp [kindOf, opcodeOf, *, Ne.symm a1, Ne.symm a2, Ne.symm a3, Ne.symm a4, Ne.symm a5, Ne.symm b1,
    Ne.symm b2, Ne.symm b3, Ne.symm b4, Ne.symm c1, Ne.symm c2, Ne.symm c3, Ne.symm d1, Ne.symm d2, Ne.symm e1]

/-- A well-formed frame is read from the front of bytes that begin with it. -/
theorem decodeFrame_frameBytes {cfg : Cfg} (h : cfg.opcodes.Nodup) (k : Kind) {f : FrameFields} (hf : f.wf = true)
    (after : List Byte) : decodeFrame cfg (frameBytes cfg k f ++ after) = .ok (frameInstr k f, after) := by
  have hlen : f.payload.length = f.len.toNat := by simpa [FrameFields.wf] using hf
  simp [frameBytes, FrameFields.tail, decodeFrame, kindOf_own h, ← hlen, List.append_assoc]

/-- The frame case, once for the six kinds. -/
theorem frame {cfg : Cfg} (h : cfg.opcodes.Nodup) (k : Kind) {f : FrameFields} (hf : f.wf = true) :
    decode cfg (.rx (opcodeOf cfg k) f.tail) = (frameInstr k f, none) := by
  have hd := decodeFrame_frameBytes h k hf []
  simp only [List.append_nil, frameBytes] at hd
  simp [decode, decodeRx, hd, rxOf]

theorem print (f : FrameFields) : Statement (.print f) := fun _ h hf => frame h .print hf
theorem feed (f : FrameFields) : Statement (.feed f) := fun _ h hf => frame h .feed hf
theorem setHeat (f : FrameFields) : Statement (.setHeat f) := fun _ h hf => frame h .setHeat hf
theorem queryStatus (f : FrameFields) : Statement (.queryStatus f) := fun _ h hf => frame h .queryStatus hf
theorem reset (f : FrameFields) : Statement (.reset f) := fun _ h hf => frame h .reset hf
theorem statusReport (f : FrameFields) : Statement (.statusReport f) := fun _ h hf => frame h .statusReport hf
theorem cfgLoad (record : CfgRecord) : Statement (.cfgLoad record) := fun _ _ _ => rfl
theorem decClear : Statement .decClear := fun _ _ _ => rfl
theorem enc (cmd : Command) : Statement (.enc cmd) := fun _ _ _ => rfl

/-- One byte alone is never a whole frame. -/
theorem decByte (b : Byte) : Statement (.decByte b) := by
  intro cfg _ _
  have hd : ∃ e, decodeFrame cfg [b] = .error e := by
    simp only [decodeFrame]
    cases kindOf cfg b <;> simp
  obtain ⟨e, he⟩ := hd
  simp [encode, decode, decodeRx, he, rxOf]

theorem rastStart (img : ImageDesc) (deviceWidth : Word) (dither : Bool) : Statement (.rastStart img deviceWidth dither) :=
  fun _ _ _ => rfl
theorem rastNext : Statement .rastNext := fun _ _ _ => rfl
theorem rastRestart : Statement .rastRestart := fun _ _ _ => rfl

end Sys2Proof.Laws.RoundTrip
end

