-- ==== Sys2Proof/Laws/Raster.lean ====
section
/-! SUPPORT. The packed row, and the pixels that a conversion reads. -/

namespace Sys2Proof.Machine

/-- Bit 7 - k of byte j is dot 8 j + k (R207). -/
theorem packByte_bit (dots : List Bool) (j k : Nat) (hk : k < 8) :
    (packByte dots j).getLsbD (7 - k) = dots.getD (8 * j + k) false := by
  have own : ∀ i : Fin 8, BitVec.getLsbD ((1 : Byte) <<< (7 - i.val)) (7 - i.val) = true := by decide
  have others : ∀ i n : Fin 8, i ≠ n → BitVec.getLsbD ((1 : Byte) <<< (7 - n.val)) (7 - i.val) = false := by decide
  have upTo : ∀ n, n ≤ 8 → ∀ i, i < 8 →
      ((List.range n).foldl
        (fun (acc : Byte) k => if dots.getD (8 * j + k) false then acc ||| ((1 : Byte) <<< (7 - k)) else acc) 0).getLsbD (7 - i)
        = (decide (i < n) && dots.getD (8 * j + i) false) := by
    intro n
    induction n with
    | zero => intro _ i _; simp
    | succ n ih =>
      intro hn i hi
      have before := ih (by omega) i hi
      rw [List.range_succ, List.foldl_append]
      simp only [List.foldl_cons, List.foldl_nil]
      split
      · rename_i hd
        rw [BitVec.getLsbD_or, before]
        by_cases hin : i = n
        · subst hin
          rw [hd, own ⟨i, hi⟩]
          simp
        · rw [others ⟨i, hi⟩ ⟨n, by omega⟩ (by simpa using hin), Bool.or_false]
          have : (i < n) = (i < n + 1) := by simp; omega
          simp only [this]
      · rename_i hd
        rw [before]
        by_cases hin : i = n
        · subst hin
          simp at hd
          simp [hd]
        · have : (i < n) = (i < n + 1) := by simp; omega
          simp only [this]
  have := upTo 8 (Nat.le_refl 8) k hk
  simpa [packByte, hk] using this

/-- A row that is answered is the packed list of its dots, and each of these is answered. -/
theorem rastRow_ok {m : Memory} {r : Rast} {y : Nat} {g : Nat → Bool}
    (h : ∀ x, x < r.W.toNat → dotAt m r y x = .ok (g x)) :
    rastRow m r y = .ok (packRow r.W.toNat ((List.range r.W.toNat).map g)) := by
  have := collect_ok (f := dotAt m r y) (g := g) r.W.toNat 0 (fun i _ hi => h i (by omega))
  simp [rastRow, this, List.range_eq_range']

/-- A dot is answered when its pixel's bytes are there. -/
theorem dotAt_ok {m : Memory} {r : Rast} {y x : Nat} {pix : Nat → Byte}
    (h : ∀ c, c < PixelFormat.channels r.img.format →
      m.read? (pixAddr r.img (srcCol r x) (srcRow r y) 0 + c) = some (pix c)) :
    dotAt m r y x = .ok (dot (luminance r.img.format ((List.range (PixelFormat.channels r.img.format)).map pix))
      (threshold r.dither x y)) := by
  have hread : memRead m (pixAddr r.img (srcCol r x) (srcRow r y) 0) (PixelFormat.channels r.img.format) =
      .ok ((List.range' (pixAddr r.img (srcCol r x) (srcRow r y) 0) (PixelFormat.channels r.img.format)).map
        fun a => pix (a - pixAddr r.img (srcCol r x) (srcRow r y) 0)) := by
    refine collect_ok (f := memByte m) _ _ fun a h1 h2 => ?_
    have := h (a - pixAddr r.img (srcCol r x) (srcRow r y) 0) (by omega)
    rw [show pixAddr r.img (srcCol r x) (srcRow r y) 0 + (a - pixAddr r.img (srcCol r x) (srcRow r y) 0) = a by omega] at this
    simp [memByte, this]
  have hlist : ∀ a n : Nat, (List.range' a n).map (fun x => pix (x - a)) = (List.range n).map pix := by
    intro a n
    apply List.ext_getElem
    · simp
    · intro i h1 h2
      simp
  rw [hlist] at hread
  simp [dotAt, hread]

/-- A dot stops on an offset that its pixel reads and that holds no byte. -/
theorem dotAt_error {m : Memory} {r : Rast} {y x : Nat} {e : Fault} (h : dotAt m r y x = .error e) :
    ∃ c, c < PixelFormat.channels r.img.format ∧ m.read? (pixAddr r.img (srcCol r x) (srcRow r y) c) = none ∧
      e = .pixelOutsideBuffer (pixAddr r.img (srcCol r x) (srcRow r y) c) := by
  unfold dotAt at h
  split at h
  · rename_i e' he
    cases h
    obtain ⟨a, h1, h2, ha⟩ := collect_error he
    obtain ⟨hn, rfl⟩ := memByte_error ha
    have hoff : pixAddr r.img (srcCol r x) (srcRow r y) (a - pixAddr r.img (srcCol r x) (srcRow r y) 0) = a := by
      unfold pixAddr at *
      omega
    exact ⟨a - pixAddr r.img (srcCol r x) (srcRow r y) 0, by omega, by rw [hoff]; exact hn, by rw [hoff]⟩
  · cases h

/-- A dot stops when one of its pixel's bytes is missing. -/
theorem dotAt_stops {m : Memory} {r : Rast} {y x c : Nat} (hc : c < PixelFormat.channels r.img.format)
    (h : m.read? (pixAddr r.img (srcCol r x) (srcRow r y) c) = none) : ∃ e, dotAt m r y x = .error e := by
  have hbyte : memByte m (pixAddr r.img (srcCol r x) (srcRow r y) c) =
      .error (.pixelOutsideBuffer (pixAddr r.img (srcCol r x) (srcRow r y) c)) := by
    simp only [memByte, h]
  obtain ⟨e, he⟩ := collect_stops (x := pixAddr r.img (srcCol r x) (srcRow r y) 0)
    (n := PixelFormat.channels r.img.format) (by unfold pixAddr; omega) (by unfold pixAddr; omega) hbyte
  exact ⟨e, by simp [dotAt, memRead, he]⟩

end Sys2Proof.Machine
end

