-- ==== Sys2Proof/Tests/Slice0.lean ====
section
/-! SUPPORT. Tests of the model against the vectors of spec/95_test_vectors.md, a smoke test of WellFormed, and one witness for each statement that has hypotheses. -/

namespace Sys2Proof.Machine.Tests

set_option Elab.async false

/-! ### Helpers -/

/-- The next state of an outcome. -/
def nextOf : Host.Outcome State Fault Refusal → Option State
  | .next t => some t
  | .fault _ => none
  | .refused _ => none

/-- The reset configuration with another device width. -/
def width (w : Word) : Cfg := { Cfg.reset with deviceWidth := w }

/-- The reset configuration with CRC8. -/
def crcCfg : Cfg := { Cfg.reset with checksumAlg := .crc8 }

/-- The state after reset under another configuration. -/
def under (c : Cfg) : State := { State.reset with cfg := c }

/-- The state after reset with a pending list. -/
def pending (l : List Input) : State := { State.reset with inputs := l }

/-- The state after reset with other decoder registers. -/
def decAt (st : DecState) (k : Kind) (lenLo : Byte) (len count : Half) (acc : Byte) (buf : Memory) : State :=
  { State.reset with
    dec := { state := st, kind := k, lenLo := lenLo, len := len, count := count, acc := acc, buf := buf, bufEpoch := 0 } }

/-- A memory that lists bytes from offset `base` on. -/
def bytesAt (base : Nat) (bs : List Byte) : Memory := (List.range bs.length).zip bs |>.map fun p => (base + p.1, p.2)

/-- A running conversion over listed pixels. -/
def rastAt (w h : Word) (fmt : PixelFormat) (W H : Word) (dither : Bool) (y : Word) (pixels : List Byte) : State :=
  { State.reset with
    rast := { state := .active, img := { width := w, height := h, format := fmt, base := 0 }, W := W, H := H,
              dither := dither, y := y }
    mem := bytesAt 0 pixels }

/-- The events on DEC_OUT after an instruction. -/
def decOutOf (i : Instr) (s : State) : Option (List DecEvent) := (nextOf (exec i s)).map fun t => t.decOut

/-- The items on RAST_OUT after an instruction. -/
def rastOutOf (i : Instr) (s : State) : Option (List RastEvent) := (nextOf (exec i s)).map fun t => t.rastOut

/-- TX after an instruction. -/
def txOf (i : Instr) (s : State) : Option (List Byte) := (nextOf (exec i s)).map fun t => t.tx

/-- A frame's fields with the reset terminator. -/
def fields (len : Half) (payload : List Byte) (checksum : Byte) : FrameFields :=
  { len := len, payload := payload, checksum := checksum, term0 := 0x0D, term1 := 0x0A }

/-- The reset record (R97: the fields a CFG_LOAD does not name). -/
def resetRecord : CfgRecord := recordOf Cfg.reset

/-! ### WellFormed: a payload that the length field does not count is refused -/

theorem test_wf_refuses_print : (Instr.print (fields 2 [0xF0] 0)).wf = false := by decide
theorem test_wf_refuses_feed : (Instr.feed (fields 2 [3, 0, 0] 0)).wf = false := by decide
theorem test_wf_refuses_setHeat : (Instr.setHeat (fields 1 [] 0)).wf = false := by decide
theorem test_wf_refuses_queryStatus : (Instr.queryStatus (fields 0 [1] 0)).wf = false := by decide
theorem test_wf_refuses_reset : (Instr.reset (fields 1 [] 0)).wf = false := by decide
theorem test_wf_refuses_statusReport : (Instr.statusReport (fields 0x100 [1] 0)).wf = false := by decide
theorem test_wf_takes_the_others :
    (Instr.feed (fields 2 [3, 0] 0xA7)).wf = true ∧ (Instr.decByte 0).wf = true ∧ (Instr.cfgLoad resetRecord).wf = true ∧
    Instr.decClear.wf = true ∧ (Instr.enc .reset).wf = true ∧ Instr.rastNext.wf = true ∧ Instr.rastRestart.wf = true ∧
    (Instr.rastStart { width := 0, height := 0, format := .gray8, base := 0 } 0 false).wf = true := by decide

/-! ### Decoding: bytes written out from 30_encoding.md rule R80 and 95_test_vectors.md section 2 -/

theorem test_decode_print :
    decode (width 16) (.rx 0xA1 [0x02, 0x00, 0xF0, 0x0F, 0xA2, 0x0D, 0x0A]) = (.print (fields 2 [0xF0, 0x0F] 0xA2), none) := by
  decide +kernel
theorem test_decode_feed :
    decode Cfg.reset (.rx 0xA2 [0x02, 0x00, 0x00, 0x01, 0xA5, 0x0D, 0x0A]) = (.feed (fields 2 [0x00, 0x01] 0xA5), none) := by
  decide +kernel
theorem test_decode_setHeat :
    decode Cfg.reset (.rx 0xA3 [0x01, 0x00, 0xC8, 0x6C, 0x0D, 0x0A]) = (.setHeat (fields 1 [0xC8] 0x6C), none) := by
  decide +kernel
theorem test_decode_queryStatus_then_more :
    decode Cfg.reset (.rx 0xA4 [0x00, 0x00, 0xA4, 0x0D, 0x0A, 0xA5, 0x00])
      = (.queryStatus (fields 0 [] 0xA4), some (.rx 0xA5 [0x00])) := by decide +kernel
theorem test_decode_reset :
    decode Cfg.reset (.rx 0xA5 [0x00, 0x00, 0xA5, 0x0D, 0x0A]) = (.reset (fields 0 [] 0xA5), none) := by decide +kernel
theorem test_decode_statusReport :
    decode Cfg.reset (.rx 0xB1 [0x01, 0x00, 0xF8, 0xAA, 0x0D, 0x0A]) = (.statusReport (fields 1 [0xF8] 0xAA), none) := by
  decide +kernel
theorem test_decode_byte_of_garbage : decode Cfg.reset (.rx 0x00 [0xFF]) = (.decByte 0x00, some (.rx 0xFF [])) := by
  decide +kernel
theorem test_decode_truncated_frame : decode Cfg.reset (.rx 0xA5 [0x00]) = (.decByte 0xA5, some (.rx 0x00 [])) := by
  decide +kernel
theorem test_decode_other_ports (r : CfgRecord) (c : Command) (img : ImageDesc) (w : Word) (d : Bool) :
    decode Cfg.reset (.cfgIn r) = (.cfgLoad r, none) ∧ decode Cfg.reset .rxClear = (.decClear, none) ∧
    decode Cfg.reset (.encCmd c) = (.enc c, none) ∧
    decode Cfg.reset (.rastCtl (.start img w d)) = (.rastStart img w d, none) ∧
    decode Cfg.reset (.rastCtl .next) = (.rastNext, none) ∧
    decode Cfg.reset (.rastCtl .restart) = (.rastRestart, none) := ⟨rfl, rfl, rfl, rfl, rfl, rfl⟩

/-- The length field is little-endian: bytes 00 0C are 3072 (E-15). -/
theorem test_decode_length_is_little_endian : joinLE 0x00 0x0C = 3072 ∧ loByte 0x0C01 = 0x01 ∧ hiByte 0x0C01 = 0x0C := by
  decide

theorem test_tableWord_feed : decodeTableWord 64 0x0A0DA700030002A2 = some (.feed (fields 2 [3, 0] 0xA7)) := by
  decide +kernel
theorem test_tableWord_short :
    decodeTableWord 8 0xB1 = some (.statusReport { len := 0, payload := [], checksum := 0, term0 := 0, term1 := 0 }) ∧
    decodeTableWord 8 0xA6 = none := by decide +kernel
theorem test_withFetchWord_runs_the_word :
    nextOf (step (State.reset.withFetchWord 64 0x0A0DA700030002A2)) = nextOf (exec (.feed (fields 2 [3, 0] 0xA7)) State.reset) := by
  decide +kernel

/-! ### Frames (sections 2 and 3) -/

-- E-10 received
theorem test_print_two_bytes : decOutOf (.print (fields 2 [0xF0, 0x0F] 0xA2)) (under (width 16))
    = some [.frame (.print [[0xF0, 0x0F]])] := by decide +kernel
-- T8: payload bytes equal to opcodes and terminators
theorem test_print_payload_needs_no_escape : decOutOf (.print (fields 4 [0xA1, 0x0D, 0x0A, 0xB1] 0x0E)) (under (width 16))
    = some [.frame (.print [[0xA1, 0x0D], [0x0A, 0xB1]])] := by decide +kernel
-- T1, E-4
theorem test_feed_256 : decOutOf (.feed (fields 2 [0x00, 0x01] 0xA5)) State.reset = some [.frame (.feed 256)] := by
  decide +kernel
-- T2, first frame
theorem test_feed_bad_checksum : decOutOf (.feed (fields 2 [3, 0] 0xA8)) State.reset = some [.error .frameCorrupt] := by
  decide +kernel
-- T14
theorem test_setHeat_crc8 : decOutOf (.setHeat (fields 1 [0xC8] 0xD8)) (under crcCfg) = some [.frame (.setHeat 200)] := by
  decide +kernel
-- T15
theorem test_setHeat_crc8_under_sum8 : decOutOf (.setHeat (fields 1 [0xC8] 0xD8)) State.reset
    = some [.error .frameCorrupt] := by decide +kernel
-- T17
theorem test_queryStatus : decOutOf (.queryStatus (fields 0 [] 0xA4)) State.reset = some [.frame .queryStatus] := by
  decide +kernel
-- T6
theorem test_queryStatus_bad_terminator :
    decOutOf (.queryStatus { len := 0, payload := [], checksum := 0xA4, term0 := 0x0D, term1 := 0x0B }) State.reset
      = some [.error .frameCorrupt] := by decide +kernel
-- T17; the block keeps its configuration (R126)
theorem test_reset_is_a_printer_command :
    (nextOf (exec (.reset (fields 0 [] 0xA5)) (under (width 16)))).map (fun t => (t.decOut, t.cfg, t.dec.state))
      = some ([.frame .reset], width 16, .awaitHeader) := by decide +kernel
-- T13
theorem test_statusReport_ignores_bits_7_4 : decOutOf (.statusReport (fields 1 [0xF8] 0xAA)) State.reset
    = some [.status { paperPresent := true, overTemperature := false, lowBattery := false, busy := true }] := by
  decide +kernel
-- S-7
theorem test_statusReport_all_bits : decOutOf (.statusReport (fields 1 [0x0F] 0xC1)) State.reset
    = some [.status { paperPresent := false, overTemperature := true, lowBattery := true, busy := true }] := by
  decide +kernel

/-! ### Decoder bytes -/

-- T3, byte 2: L = 65535 is over MAX_PAYLOAD
theorem test_decByte_length_overflow :
    decOutOf (.decByte 0xFF) (decAt .awaitLength1 .print 0xFF 0 0 0xA0 []) = some [.error .frameCorrupt] := by decide +kernel
-- P3, byte e: 00 after A5 leaves AwaitLength1 with kind RESET and the checksum A5
theorem test_decByte_low_length :
    (nextOf (exec (.decByte 0x00) (decAt .awaitLength0 .reset 0x77 0 0 0xA5 []))).map
        (fun t => (t.decOut, t.dec.state, t.dec.kind, t.dec.lenLo, t.dec.acc))
      = some ([], .awaitLength1, .reset, 0x00, 0xA5) := by decide +kernel
-- T9
theorem test_decClear_mid_frame :
    (nextOf (exec .decClear (decAt .awaitLength1 .feed 0x02 0 0 0xA4 []))).map (fun t => (t.decOut, t.dec.state, t.dec.acc))
      = some ([], .awaitHeader, 0xA4) := by decide +kernel

/-! ### Encoder -/

-- E-34
theorem test_enc_setHeat_crc8 : txOf (.enc (.setHeat 200)) (under crcCfg)
    = some [0xA3, 0x01, 0x00, 0xC8, 0xD8, 0x0D, 0x0A] := by decide +kernel
-- E-13, E-20, E-21
theorem test_enc_print :
    txOf (.enc (.print [[0x01, 0x02], [0x03, 0x04]])) (under (width 16))
      = some [0xA1, 0x04, 0x00, 0x01, 0x02, 0x03, 0x04, 0xAF, 0x0D, 0x0A] ∧
    (nextOf (exec (.enc (.print [])) State.reset)).map (fun t => (t.tx, t.encStatus)) = some ([], [.encodeInvalid .print]) ∧
    (nextOf (exec (.enc (.print [List.replicate 47 0])) State.reset)).map (fun t => (t.tx, t.encStatus))
      = some ([], [.encodeInvalid .print]) := by decide +kernel

/-! ### Control -/

-- K-1, K-2, K-3, K-4, K-7, K-8
theorem test_cfgLoad_refused :
    (nextOf (exec (.cfgLoad { resetRecord with opcFeed := 0xA1 }) State.reset)).map (fun t => (t.cfgStatus, t.cfg))
      = some ([.configInvalid 1], Cfg.reset) ∧
    firstFailingCheck { resetRecord with checksumAlg := 2 } = some 2 ∧
    firstFailingCheck { resetRecord with deviceWidth := 0 } = some 3 ∧
    firstFailingCheck { resetRecord with maxPayload := 47 } = some 4 ∧
    firstFailingCheck { resetRecord with deviceWidth := 8, maxPayload := 1 } = some 4 ∧
    firstFailingCheck { resetRecord with maxPayload := 65536 } = some 4 := by decide +kernel
-- K-5, K-6, K-9
theorem test_cfgLoad_taken :
    firstFailingCheck { resetRecord with maxPayload := 48 } = none ∧
    firstFailingCheck { resetRecord with deviceWidth := 8, maxPayload := 2 } = none ∧
    (nextOf (exec (.cfgLoad { resetRecord with deviceWidth := 8, maxPayload := 2 })
        (decAt .awaitLength1 .feed 0x02 0 0 0xA4 []))).map
        (fun t => (t.cfg, t.dec.state, t.decOut, t.cfgStatus))
      = some ({ Cfg.reset with deviceWidth := 8, maxPayload := 2 }, .awaitHeader, [], []) := by decide +kernel

/-! ### Rasterizer (section 4) -/

-- R-14: H = 16 div 3 = 5
theorem test_rastStart_height :
    (nextOf (exec (.rastStart { width := 3, height := 2, format := .gray8, base := 7 } 8 true) State.reset)).map
        (fun t => t.rast)
      = some { state := .active, img := { width := 3, height := 2, format := .gray8, base := 7 }, W := 8, H := 5,
               dither := true, y := 0 } := by decide +kernel
-- R-23, R-28
theorem test_rastStart_refused :
    (nextOf (exec (.rastStart { width := 1, height := 0xFFFFFFFF, format := .gray8, base := 0 } 2 true)
        (rastAt 1 1 .gray8 1 1 true 0 [0]))).map (fun t => (t.rastOut, t.rast.state))
      = some ([.error (.invalidImage 1 4294967295 2)], .idle) := by decide +kernel
-- R-10b, R-4 (row 2)
theorem test_rastNext_dither :
    rastOutOf .rastNext (rastAt 8 1 .gray8 8 1 true 0 [0x00, 0x24, 0x49, 0x6D, 0x92, 0xB6, 0xDB, 0xFF])
      = some [.row [0xD0]] ∧
    rastOutOf .rastNext (rastAt 8 4 .gray8 8 4 true 2 (List.replicate 32 24)) = some [.row [0xDD]] := by decide +kernel
-- R-15a, R-12 (padding), R-26
theorem test_rastNext_rgb_padding_end :
    rastOutOf .rastNext (rastAt 8 1 .rgb888 8 1 true 0 (List.replicate 8 [0x00, 0xFF, 0x00]).flatten)
      = some [.row [0x11]] ∧
    rastOutOf .rastNext (rastAt 10 1 .gray8 10 1 true 0 (List.replicate 10 0)) = some [.row [0xFF, 0xC0]] ∧
    rastOutOf .rastNext (rastAt 2 1 .gray8 16 8 true 8 [0x00, 0xFF]) = some [.endOfRows] := by decide +kernel
-- R-27
theorem test_rastRestart_rewinds :
    (nextOf (exec .rastRestart (rastAt 2 2 .gray8 4 4 true 3 [0x00, 0xFF, 0xFF, 0x00]))).map
        (fun t => (t.rastOut, t.rast.y, t.rast.state)) = some ([], 0, .active) := by decide +kernel
-- R-25
theorem test_rastRestart_idle : rastOutOf .rastRestart State.reset = some [.error .rastIdle] := by decide +kernel

/-! ### Reset -/

theorem test_blockReset_keeps_what_was_emitted :
    (nextOf (step { under (width 16) with tx := [0xA4], inputs := [.blockReset] })).map (fun t => (t.cfg, t.tx, t.rast.state))
      = some (Cfg.reset, [0xA4], .idle) := by decide +kernel
theorem test_reset_record_is_valid : cfgValid Cfg.reset := by decide

/-! ### Witnesses: a concrete state and operands that meet the hypotheses of each statement -/

/-- A 2 x 1 image, black then white, at device width 16: the running conversion of vector R-11. -/
def r11 (y : Word) : State := rastAt 2 1 .gray8 16 8 true y [0x00, 0xFF]

/-- The decoder inside the payload of the frame of E-1: one byte written, one to come. -/
def midPayload : State := decAt .awaitPayload .feed 0x02 2 1 0xA7 [(0, 0x03)]

theorem r11_imageProvided (y : Word) : imageProvided (r11 y).mem (r11 y).rast.img := by
  have h : ∀ a, a < 2 → (Memory.read? (bytesAt 0 [0x00, 0xFF]) a).isSome := by decide
  intro a _ h2
  exact h a h2

theorem r11_rastOk : rastOk (r11 0).rast ∧ rastOk (r11 8).rast := by
  constructor <;> exact ⟨by decide, fun _ => by decide⟩

theorem midPayload_inv : Inv midPayload ∧ accOk midPayload.cfg midPayload.dec := by
  refine ⟨⟨by decide, ⟨by decide, by decide, ⟨by decide, by decide⟩, by decide, fun i hi => ?_⟩, ⟨by decide, by decide⟩, by decide⟩, ?_⟩
  · exact (by decide : ∀ i, i < 1 → (Memory.read? [(0, 0x03)] i).isSome) i hi
  show midPayload.dec.acc = ck Cfg.reset [0xA2, 0x02, 0x00, 0x03]
  decide

theorem witness_DecodeReturnsEncodedInstruction :
    Cfg.reset.opcodes.Nodup ∧ (Instr.feed (fields 2 [3, 0] 0xA7)).wf = true := by decide
theorem witness_DecodedFrameIsThePrefix : decodeFrame Cfg.reset [0xA5, 0x00, 0x00, 0xA5, 0x0D, 0x0A, 0xFF]
    = .ok (.reset (fields 0 [] 0xA5), [0xFF]) := rfl
/-- Each rejection happens: no byte, no header, an empty rest, one length byte, one byte short of 6 + L. -/
theorem witness_FrameDecoderRejectsByName :
    decodeFrame Cfg.reset [] = .error .noBytes ∧ decodeFrame Cfg.reset [0x00, 0xA5] = .error (.notHeader 0x00) ∧
    decodeFrame Cfg.reset [0xA5] = .error .truncated ∧ decodeFrame Cfg.reset [0xA5, 0x00] = .error .truncated ∧
    decodeFrame Cfg.reset [0xA3, 0x01, 0x00, 0xC8, 0x6C, 0x0D] = .error .truncated := ⟨rfl, rfl, rfl, rfl, rfl⟩
theorem witness_OpcodeLookupIsInverse :
    Cfg.reset.opcodes.Nodup ∧ kindOf Cfg.reset 0xB1 = some .statusReport ∧ kindOf Cfg.reset 0xA6 = none := by decide
theorem witness_StepRunsTheDecodedInstruction : (pending [.op .rxClear, .blockReset]).inputs = .op .rxClear :: [.blockReset] := rfl
theorem witness_StepOnRxBytesIsDecByteByByte :
    (pending [.op (.rx 0x00 [0xA5, 0x00])]).inputs = .op (.rx 0x00 [0xA5, 0x00]) :: [] := rfl
theorem witness_StepWithNothingPendingIsIdle : State.reset.inputs = [] := rfl
theorem witness_BlockResetSetsEveryRegister : (pending [.blockReset]).inputs = .blockReset :: [] := rfl
theorem witness_StepKeepsTheInvariant :
    Inv midPayload ∧ ∃ t, step { midPayload with inputs := [.op (.rx 0x00 [])] } = .next t ∧ t.dec.state = .awaitChecksum :=
  ⟨midPayload_inv.1, _, rfl, by decide +kernel⟩
theorem witness_StepKeepsTheRunningChecksum : Inv midPayload ∧ accOk midPayload.cfg midPayload.dec := midPayload_inv
/-- Both stops happen: a conversion over memory that lists nothing, and a write of the bound buffer's last byte. -/
theorem witness_StepStopsOnlyWhereStuck :
    step { r11 0 with mem := [], inputs := [.op (.rastCtl .next)] } = .fault (.pixelOutsideBuffer 0) ∧
    step { r11 0 with inputs := [.hostWrite 1 0x55] } = .fault (.boundBufferWritten 1) := ⟨rfl, rfl⟩
/-- A host that writes its two pixels, starts a conversion over them, writes beside them, and asks for a row. -/
def loading : State := pending [.hostWrite 0 0x00, .hostWrite 1 0xFF,
  .op (.rastCtl (.start { width := 2, height := 1, format := .gray8, base := 0 } 16 true)), .hostWrite 2 0x77,
  .op (.rastCtl .next)]

theorem loading_inv : Inv loading := ⟨by decide, ⟨by decide, by decide, trivial⟩, ⟨by decide, by decide⟩, by decide⟩

theorem keepsDuty_cons {s t : State} {x : Input} {later : List Input} (hi : s.inputs = x :: later)
    (hx : inputKeepsDuty s x) (hs : step s = .next t) (ht : hostKeepsDuty t) : hostKeepsDuty s :=
  hostKeepsDuty_step.2 ⟨(nextKeepsDuty_cons hi).2 hx, fun u hu => by rw [hs] at hu; cases hu; exact ht⟩

theorem witness_HostDutyKeepsRunsUnstuck : Inv loading ∧ boundBufferProvided loading ∧ hostKeepsDuty loading :=
  ⟨loading_inv, (fun h => nomatch h),
    keepsDuty_cons rfl (by unfold inputKeepsDuty; decide) rfl <|
    keepsDuty_cons rfl (by unfold inputKeepsDuty; decide) rfl <|
    keepsDuty_cons rfl (fun _ => r11_imageProvided 0) rfl <|
    keepsDuty_cons rfl (by unfold inputKeepsDuty; decide) rfl <|
    keepsDuty_cons rfl trivial rfl <| hostKeepsDuty_nil rfl⟩
/-- Both clauses at the ends of the bound range 0..1: offset 1 is inside, offset 2 is not, and nothing is bound when IDLE. -/
theorem witness_HostWriteMovesOneByte :
    inBoundBuffer (r11 0).rast 0 = true ∧ inBoundBuffer (r11 0).rast 1 = true ∧ inBoundBuffer (r11 0).rast 2 = false ∧
    inBoundBuffer State.reset.rast 0 = false := by decide
/-- The largest legal Print (E-15) and one row too many (E-22); zero rows (E-20); a row of 47 bytes (E-21). -/
theorem witness_EncEmitsOneFrameOrRefuses :
    encValid Cfg.reset (.print (List.replicate 64 (List.replicate 48 0))) = true ∧
    encValid Cfg.reset (.print (List.replicate 65 (List.replicate 48 0))) = false ∧
    encValid Cfg.reset (.print []) = false ∧ encValid Cfg.reset (.print [List.replicate 47 0]) = false := by decide +kernel
theorem witness_EncReadsOnlyItsOperandAndCfg : (under crcCfg).cfg = { under crcCfg with tx := [1] }.cfg := rfl
theorem witness_EncodedCommandDecodesBack :
    cfgValid (width 16) ∧ encValid (width 16) (.print [[0xF0, 0x0F]]) = true ∧ (under (width 16)).dec.state = .awaitHeader := by
  decide +kernel
theorem witness_GarbageBeforeAFrameIsSkipped :
    cfgValid Cfg.reset ∧ encValid Cfg.reset (.feed 3) = true ∧ State.reset.dec.state = .awaitHeader ∧
    (∀ b ∈ ([0x00, 0xFF, 0x0D, 0x0A] : List Byte), kindOf Cfg.reset b = none) := by decide +kernel
theorem witness_ChangedPayloadByteIsCorrupt :
    cfgValid Cfg.reset ∧ encValid Cfg.reset (.feed 3) = true ∧ State.reset.dec.state = .awaitHeader ∧
    1 < (commandPayload (.feed 3)).length ∧ (commandPayload (.feed 3))[1]? ≠ some 0x01 ∧
    kindOf Cfg.reset Cfg.reset.term0 = none ∧ kindOf Cfg.reset Cfg.reset.term1 = none := by decide +kernel
theorem witness_DecoderReturnsToAwaitHeader :
    Inv { under { Cfg.reset with maxPayload := 48 } with tx := [] } ∧
    (List.replicate 53 (0xA2 : Byte)).length = 5 + ({ Cfg.reset with maxPayload := 48 } : Cfg).maxPayload.toNat :=
  ⟨⟨by decide, ⟨by decide, by decide, trivial⟩, ⟨by decide, by decide⟩, by decide⟩, by decide⟩
/-- A frame of E-5 with each field wrong in turn: the length, the checksum, either terminator byte. -/
theorem witness_IllegalFrameIsCorrupt :
    Cfg.reset.opcodes.Nodup ∧ State.reset.dec.state = .awaitHeader ∧
    shapeOk Cfg.reset .setHeat 2 = false ∧ Cfg.reset.maxPayload.toNat < (3073 : Half).toNat ∧
    (0x6D : Byte) ≠ ck Cfg.reset [0xA3, 0x01, 0x00, 0xC8] ∧ (0x0A : Byte) ≠ Cfg.reset.term0 ∧ (0x0B : Byte) ≠ Cfg.reset.term1 := by
  decide +kernel
theorem witness_ByteInAwaitHeader :
    State.reset.dec.state = .awaitHeader ∧ kindOf State.reset.cfg 0x0D = none ∧ kindOf State.reset.cfg 0xA1 = some .print := by
  decide
theorem witness_ByteInAwaitLength0 : (decAt .awaitLength0 .feed 0 0 0 0xA2 []).dec.state = .awaitLength0 := rfl
/-- T12 and T11 and a frame without payload: L = 3072 is taken, L = 3073 overflows, L = 0 is PRINT's wrong shape and RESET's right one. -/
theorem witness_ByteInAwaitLength1 :
    (decAt .awaitLength1 .print 0x00 0 0 0xA1 []).dec.state = .awaitLength1 ∧
    shapeOk Cfg.reset .print 3072 = true ∧ Cfg.reset.maxPayload.toNat = 3072 ∧ shapeOk Cfg.reset .print 3073 = false ∧
    shapeOk Cfg.reset .print 0 = false ∧ shapeOk Cfg.reset .reset 0 = true := by decide
theorem witness_ByteInAwaitPayload :
    midPayload.dec.state = .awaitPayload ∧ midPayload.dec.count.toNat < midPayload.dec.len.toNat ∧
    midPayload.dec.count.toNat + 1 = midPayload.dec.len.toNat := by decide
theorem witness_ChecksumAndFirstTerminatorByte :
    (decAt .awaitChecksum .reset 0 0 0 0xA5 []).dec.state = .awaitChecksum ∧
    (0xA5 : Byte) = (decAt .awaitChecksum .reset 0 0 0 0xA5 []).dec.acc ∧
    (decAt .awaitTerminator0 .reset 0 0 0 0xA5 []).dec.state = .awaitTerminator0 ∧ (0x0D : Byte) = Cfg.reset.term0 := by decide
/-- A good last byte for each of the six kinds. -/
theorem witness_LastTerminatorByte :
    (decAt .awaitTerminator1 .feed 0x02 2 2 0xA7 [(0, 3), (1, 0)]).dec.state = .awaitTerminator1 ∧
    (0x0A : Byte) = Cfg.reset.term1 ∧ shapeOk Cfg.reset .feed 2 = true ∧ shapeOk Cfg.reset .print 48 = true ∧
    shapeOk Cfg.reset .setHeat 1 = true ∧ shapeOk Cfg.reset .queryStatus 0 = true ∧ shapeOk Cfg.reset .reset 0 = true ∧
    shapeOk Cfg.reset .statusReport 1 = true := by decide
theorem witness_FrameInstructionsAreTheirBytes :
    ([0x00, 0x00, 0xA5, 0x0D, 0x0A] : List Byte) = (fields 0 [] 0xA5).len.setWidth 8 ::
      ((fields 0 [] 0xA5).len >>> 8).setWidth 8 :: ((fields 0 [] 0xA5).payload ++ [0xA5, 0x0D, 0x0A]) := by decide
theorem witness_PrintFrameGivesItsRows :
    cfgValid (width 16) ∧ (under (width 16)).dec.state = .awaitHeader ∧ 1 ≤ ([[0xF0, 0x0F]] : List BitRow).length ∧
    (∀ r ∈ ([[0xF0, 0x0F]] : List BitRow), r.length = (width 16).rowBytes) ∧
    ([[0xF0, 0x0F]] : List BitRow).length * (width 16).rowBytes ≤ (width 16).maxPayload.toNat := by decide
/-- FEED, SET_HEAT, QUERY_STATUS, RESET and STATUS_REPORT frames: the statements ask the same of the state. -/
theorem witness_FeedFrameGivesItsLines : cfgValid State.reset.cfg ∧ State.reset.dec.state = .awaitHeader := by decide
theorem witness_SetHeatFrameGivesItsLevel : cfgValid (under crcCfg).cfg ∧ (under crcCfg).dec.state = .awaitHeader := by decide
theorem witness_QueryStatusAndResetFrames : cfgValid State.reset.cfg ∧ State.reset.dec.state = .awaitHeader := by decide
theorem witness_StatusReportFrameGivesItsReport : cfgValid State.reset.cfg ∧ State.reset.dec.state = .awaitHeader := by decide
theorem witness_Sum8IsTheSumModulo256 : Cfg.reset.checksumAlg = .sum8 ∧ ck Cfg.reset [0xA3, 0x01, 0x00, 0xC8] = 0x6C := by decide
theorem witness_Crc8CheckValues : crcCfg.checksumAlg = .crc8 := rfl
/-- K-5 and K-6: the smallest MAX_PAYLOAD at two widths; the largest. -/
theorem witness_CfgLoadTakesAValidRecord :
    (CfgRecord.opcodes resetRecord).Nodup ∧ (resetRecord.checksumAlg = 0 ∨ resetRecord.checksumAlg = 1) ∧
    1 ≤ (384 : Word).toNat ∧ max 2 (((384 : Word).toNat + 7) / 8) ≤ (48 : Word).toNat ∧ max 2 (((8 : Word).toNat + 7) / 8) ≤ (2 : Word).toNat ∧
    (65535 : Word).toNat ≤ 65535 := by decide
/-- K-1, K-2, K-3, and K-4, K-7, K-8 at the boundaries of check 4. -/
theorem witness_CfgLoadRefusesAnInvalidRecord :
    ¬ (CfgRecord.opcodes { resetRecord with opcFeed := 0xA1 }).Nodup ∧ (CfgRecord.opcodes resetRecord).Nodup ∧ 1 < (2 : Nat) ∧
    (0 : Word).toNat = 0 ∧ (47 : Word).toNat < max 2 (((384 : Word).toNat + 7) / 8) ∧
    (1 : Word).toNat < max 2 (((8 : Word).toNat + 7) / 8) ∧ 65535 < (65536 : Word).toNat := by decide
/-- R-14 binds; the largest height that fits binds, the next does not (R-23); a zero operand refuses (R-20 to R-22). -/
theorem witness_RastStartBindsOrRefuses :
    max 1 ((2 * 8) / 3) = 5 ∧ max 1 (((0xFFFFFFFF : Word).toNat * 1) / 1) < 2 ^ 32 ∧
    2 ^ 32 ≤ max 1 (((0xFFFFFFFF : Word).toNat * (2 : Word).toNat) / 1) ∧ (0 : Word) = 0 := by decide
theorem witness_RastNextFollowsThePipeline :
    State.reset.rast.state = .idle ∧ (r11 8).rast.state = .active ∧ (r11 8).rast.y = (r11 8).rast.H ∧
    (r11 7).rast.state = .active ∧ (r11 7).rast.y ≠ (r11 7).rast.H ∧
    ∀ x c, x < (r11 7).rast.W.toNat → c < 1 →
      (r11 7).mem.read? ((r11 7).rast.img.base +
        ((r11 7).rast.y.toNat * (r11 7).rast.img.height.toNat / (r11 7).rast.H.toNat * (r11 7).rast.img.width.toNat +
          x * (r11 7).rast.img.width.toNat / (r11 7).rast.W.toNat) * 1 + c) = some (if x < 8 then 0x00 else 0xFF) := by
  refine ⟨rfl, rfl, rfl, rfl, by decide, ?_⟩
  have h : ∀ x, x < 16 → (r11 7).mem.read? (0 + (7 * 1 / 8 * 2 + x * 2 / 16) * 1 + 0) = some (if x < 8 then 0x00 else 0xFF) := by
    decide
  intro x c hx hc
  obtain rfl : c = 0 := by omega
  exact h x hx
theorem witness_RastRestartRewinds : (r11 3).rast.state = .active ∧ State.reset.rast.state = .idle := ⟨rfl, rfl⟩
theorem witness_SourcePixelLiesInTheImage :
    rastOk (r11 0).rast ∧ (r11 0).rast.state = .active ∧
    (rastAt 2 2 .gray8 2 2 true 0 []).rast.img.width = (rastAt 2 2 .gray8 2 2 true 0 []).rast.W ∧
    rastOk (rastAt 2 2 .gray8 2 2 true 0 []).rast :=
  ⟨r11_rastOk.1, rfl, rfl, by decide, fun _ => by decide⟩
theorem witness_ConversionEmitsItsRowsThenEnd :
    (2 : Word) ≠ 0 ∧ (1 : Word) ≠ 0 ∧ (16 : Word) ≠ 0 ∧ 8 = max 1 (((1 : Word).toNat * (16 : Word).toNat) / (2 : Word).toNat) ∧
    8 < 2 ^ 32 ∧ imageProvided (r11 0).mem { width := 2, height := 1, format := .gray8, base := 0 } :=
  ⟨by decide, by decide, by decide, by decide, by decide, r11_imageProvided 0⟩
theorem witness_RestartRepeatsTheRows :
    rastOk (r11 0).rast ∧ (r11 0).rast.state = .active ∧ (r11 0).rast.y = 0 ∧ imageProvided (r11 0).mem (r11 0).rast.img :=
  ⟨r11_rastOk.1, rfl, rfl, r11_imageProvided 0⟩
theorem witness_RowDependsOnlyOnTheImage :
    (r11 0).rast = { r11 0 with cfg := crcCfg, mem := (r11 0).mem ++ [(9, 9)] }.rast ∧ rastOk (r11 0).rast ∧
    (r11 0).rast.state = .active ∧ imageProvided (r11 0).mem (r11 0).rast.img ∧
    ∀ a, a < 2 → (r11 0).mem.read? a = ((r11 0).mem ++ [(9, 9)]).read? a :=
  ⟨rfl, r11_rastOk.1, rfl, r11_imageProvided 0, by decide⟩
theorem witness_UnitsCommute :
    unitOf (.cfgLoad resetRecord) ≠ unitOf .rastNext ∧ unitOf (.cfgLoad resetRecord) = .cfg ∧ unitOf .rastNext = .rast ∧
    unitOf (.enc .reset) ≠ unitOf (.decByte 0) ∧ unitOf (.enc .reset) ≠ .cfg ∧ unitOf (.decByte 0) ≠ .cfg := by decide
theorem witness_AnErrorIsTheOnlyOutput :
    ∃ t, exec .rastNext State.reset = .next t ∧ t.rastOut = [.error .rastIdle] := ⟨_, rfl, rfl⟩
theorem witness_InstructionsLeaveHostMemoryAlone : ∃ t, exec .rastNext (r11 0) = .next t ∧ t.rastOut = [.row [0xFF, 0x00]] :=
  ⟨_, rfl, by decide +kernel⟩
/-- Each register file really changes in some step. -/
theorem witness_RegistersHaveTheirWriters :
    (∃ t, step (pending [.op (.cfgIn { resetRecord with deviceWidth := 8 })]) = .next t ∧ t.cfg ≠ State.reset.cfg) ∧
    (∃ t, step (pending [.op (.rx 0xA1 [])]) = .next t ∧ t.dec ≠ State.reset.dec) ∧
    (∃ t, step { r11 0 with inputs := [.op (.rastCtl .next)] } = .next t ∧ t.rast ≠ (r11 0).rast) ∧
    (∃ t, step (pending [.hostWrite 3 7]) = .next t ∧ t.mem ≠ State.reset.mem) :=
  ⟨⟨_, rfl, by decide⟩, ⟨_, rfl, by decide⟩, ⟨_, rfl, by decide +kernel⟩, ⟨_, rfl, by decide⟩⟩
theorem witness_OperationsComplete :
    Instr.decClear ≠ .rastNext ∧ State.reset.rast.state = .idle ∧ (r11 8).rast.y = (r11 8).rast.H ∧
    rastOk (r11 0).rast ∧ imageProvided (r11 0).mem (r11 0).rast.img :=
  ⟨by decide, rfl, rfl, r11_rastOk.1, r11_imageProvided 0⟩
/-- A byte of the row is missing: the second pixel's, which dots 8 to 15 read. -/
theorem witness_RastNextStopsOnAnUnreadablePixel :
    (rastAt 2 1 .gray8 16 8 true 7 [0x00]).rast.state = .active ∧
    (rastAt 2 1 .gray8 16 8 true 7 [0x00]).rast.y ≠ (rastAt 2 1 .gray8 16 8 true 7 [0x00]).rast.H ∧
    8 < (16 : Word).toNat ∧ (rastAt 2 1 .gray8 16 8 true 7 [0x00]).mem.read? (0 + (7 * 1 / 8 * 2 + 8 * 2 / 16) * 1 + 0) = none ∧
    exec .rastNext (rastAt 2 1 .gray8 16 8 true 7 [0x00]) = .fault (.pixelOutsideBuffer 1) :=
  ⟨rfl, by decide, by decide, rfl, rfl⟩
/-- A write just past the bound buffer keeps the duty, one of its last byte does not; so does a start over a readable buffer. -/
theorem witness_StepKeepsTheBoundBufferReadable :
    Inv { r11 0 with inputs := [.hostWrite 2 0x55] } ∧ boundBufferProvided { r11 0 with inputs := [.hostWrite 2 0x55] } ∧
    nextKeepsDuty { r11 0 with inputs := [.hostWrite 2 0x55] } ∧ ¬ inputKeepsDuty (r11 0) (.hostWrite 1 0x55) ∧
    inputKeepsDuty (r11 0) (.op (.rastCtl (.start { width := 2, height := 1, format := .gray8, base := 0 } 4 false))) :=
  ⟨⟨by decide, ⟨by decide, by decide, trivial⟩, r11_rastOk.1, by decide⟩, fun _ => r11_imageProvided 0,
    (nextKeepsDuty_cons rfl).2 (by unfold inputKeepsDuty; decide), by unfold inputKeepsDuty; decide,
    fun _ => r11_imageProvided 0⟩
/-- 95_test_vectors.md section 2.3: the first row of the worked CRC8, 00 and A3 give 60. -/
theorem witness_Crc8UpdateIsTheRemainder : crcCfg.checksumAlg = .crc8 ∧ ckUpdate crcCfg 0x00 0xA3 = 0x60 := by decide

/-! ### Status frames (section 2.4) -/

-- S-8 and S-5, S-3: the byte F8 goes out as it is given, the report of F8 goes out as 08
theorem test_status_frames :
    statusFrame Cfg.reset 0xF8 = [0xB1, 0x01, 0x00, 0xF8, 0xAA, 0x0D, 0x0A] ∧
    replyFrame Cfg.reset (statusOf 0xF8) = [0xB1, 0x01, 0x00, 0x08, 0xBA, 0x0D, 0x0A] ∧
    replyFrame Cfg.reset { paperPresent := true, overTemperature := true, lowBattery := false, busy := false }
      = [0xB1, 0x01, 0x00, 0x02, 0xB4, 0x0D, 0x0A] := by decide +kernel
theorem witness_StatusFrameDecodesToItsReport :
    cfgValid (under crcCfg).cfg ∧ (under crcCfg).dec.state = .awaitHeader ∧ (0x0F : Byte) >>> 4 = 0 := by decide

end Sys2Proof.Machine.Tests
end

section
/-! The opcode lookup and its inverse (10_state.md rule R32). -/

namespace Sys2Proof
open Laws.RoundTrip (kindOf_own)

/-- The lookup answers a kind only for that kind's opcode register, distinct opcodes or not. -/
theorem eq_opcodeOf_of_kindOf {cfg : Cfg} {b : Byte} {k : Kind} (h : kindOf cfg b = some k) : b = opcodeOf cfg k := by
  unfold kindOf at h
  split_ifs at h with hPrint hFeed hHeat hQuery hReset hReport <;> cases h <;> assumption

/-- R32's lookup read both ways; distinctness is what makes an opcode register select its own kind. -/
theorem kindOf_eq_some_iff {cfg : Cfg} (hd : cfg.opcodes.Nodup) (b : Byte) (k : Kind) :
    kindOf cfg b = some k ↔ b = opcodeOf cfg k :=
  ⟨eq_opcodeOf_of_kindOf, fun h => h ▸ kindOf_own hd k⟩

/-- The six opcode registers are the values of `opcodeOf`. -/
theorem mem_opcodes_iff {cfg : Cfg} {b : Byte} : b ∈ cfg.opcodes ↔ ∃ k, b = opcodeOf cfg k := by
  constructor
  · intro h
    simp only [Cfg.opcodes, List.mem_cons, List.not_mem_nil, or_false] at h
    obtain h | h | h | h | h | h := h
    exacts [⟨.print, h⟩, ⟨.feed, h⟩, ⟨.setHeat, h⟩, ⟨.queryStatus, h⟩, ⟨.reset, h⟩, ⟨.statusReport, h⟩]
  · rintro ⟨k, rfl⟩
    cases k <;> simp [Cfg.opcodes, opcodeOf]

/-- A byte is no header byte exactly when it is no opcode (R32, R93). -/
theorem kindOf_eq_none_iff {cfg : Cfg} (hd : cfg.opcodes.Nodup) (b : Byte) :
    kindOf cfg b = none ↔ b ∉ cfg.opcodes := by
  simp only [Option.eq_none_iff_forall_ne_some, ne_eq, kindOf_eq_some_iff hd, mem_opcodes_iff, not_exists]

/-- Settles O4: an opcode register selects its own kind, and no other byte selects one. -/
theorem opcodeLookupIsInverse : Obligations.OpcodeLookupIsInverse :=
  fun _ hd => ⟨kindOf_eq_some_iff hd, kindOf_eq_none_iff hd⟩

end Sys2Proof
end

section
/-! The legal payload lengths and the sum checksum (30_encoding.md rules R84, R89). -/

namespace Sys2Proof.Machine

/-- The legal payload lengths of PRINT (R84). -/
theorem shapeOk_print_iff {cfg : Cfg} {L : Nat} :
    shapeOk cfg .print L = true ↔ 1 ≤ L ∧ L % cfg.rowBytes = 0 ∧ L ≤ cfg.maxPayload.toNat := by
  simp [shapeOk, and_assoc]

/-- Settles O37: PRINT by its three conditions, every other kind by its one length. -/
theorem payloadShapesAreFixedByKind : Obligations.PayloadShapesAreFixedByKind := by
  intro cfg L
  refine ⟨shapeOk_print_iff, ?_, ?_, ?_, ?_, ?_⟩ <;> exact beq_iff_eq

/-- One byte into the running sum (R89). -/
theorem ckUpdate_toNat_of_sum8 {cfg : Cfg} (h : cfg.checksumAlg = .sum8) (acc b : Byte) :
    (ckUpdate cfg acc b).toNat = (acc.toNat + b.toNat) % 256 := by
  simp [ckUpdate, h, sumUpdate, BitVec.toNat_add]

/-- The running sum over a byte list, from any accumulator (R89, R91). -/
theorem foldl_ckUpdate_toNat_of_sum8 {cfg : Cfg} (h : cfg.checksumAlg = .sum8) (d : List Byte) (acc : Byte) :
    (d.foldl (ckUpdate cfg) acc).toNat = (acc.toNat + (d.map BitVec.toNat).sum) % 256 := by
  induction d generalizing acc with
  | nil => exact (Nat.mod_eq_of_lt acc.isLt).symm
  | cons b bs ih =>
    simp only [List.foldl_cons, List.map_cons, List.sum_cons, ih, ckUpdate_toNat_of_sum8 h]
    omega

/-- Settles O38: the sum is the fold of R89's update from 0. -/
theorem sum8IsTheSumModulo256 : Obligations.Sum8IsTheSumModulo256 := by
  intro cfg d h
  refine ⟨?_, rfl, fun acc b => ⟨ckUpdate_toNat_of_sum8 h acc b, rfl⟩⟩
  simpa [ck, ckFinal, ckInit] using foldl_ckUpdate_toNat_of_sum8 h d ckInit

end Sys2Proof.Machine
end

section
/-! How the decoder takes the bytes of a frame, field by field (41_decoder.md rules R161 to R166), and where it refuses an illegal one (30_encoding.md rule R94). -/

namespace Sys2Proof.Machine
open Laws.RoundTrip (kindOf_own)

/-! ### One byte, in the states that check it -/

theorem decStep_length1_refused {cfg : Cfg} {d : Dec} {b : Byte} (hs : d.state = .awaitLength1)
    (hbad : cfg.maxPayload.toNat < (joinLE d.lenLo b).toNat ∨ shapeOk cfg d.kind (joinLE d.lenLo b).toNat = false) :
    decStep cfg d b = corrupt { d with acc := ckUpdate cfg d.acc b } := by
  simp [decStep, hs, hbad]

/-- With length 0 the checksum byte follows, else the payload from entry 0 on. -/
theorem decStep_length1_accepted {cfg : Cfg} {d : Dec} {b : Byte} (hs : d.state = .awaitLength1)
    (hmax : (joinLE d.lenLo b).toNat ≤ cfg.maxPayload.toNat)
    (hshape : shapeOk cfg d.kind (joinLE d.lenLo b).toNat = true) :
    decStep cfg d b =
      ({ d with acc := ckUpdate cfg d.acc b, len := joinLE d.lenLo b,
                count := if joinLE d.lenLo b = 0 then d.count else 0,
                state := if joinLE d.lenLo b = 0 then .awaitChecksum else .awaitPayload }, none) := by
  have hok : ¬ (cfg.maxPayload.toNat < (joinLE d.lenLo b).toNat ∨ shapeOk cfg d.kind (joinLE d.lenLo b).toNat = false) := by
    simp [hmax, hshape]
  simp only [decStep, hs, if_neg hok]
  by_cases h0 : joinLE d.lenLo b = 0
  · simp [h0]
  · simp only [if_neg h0]

theorem decStep_checksum_ne {cfg : Cfg} {d : Dec} {b : Byte} (hs : d.state = .awaitChecksum) (hb : b ≠ ckFinal d.acc) :
    decStep cfg d b = corrupt d := by
  simp [decStep, hs, hb]

theorem decStep_checksum_eq {cfg : Cfg} {d : Dec} (hs : d.state = .awaitChecksum) :
    decStep cfg d (ckFinal d.acc) = ({ d with state := .awaitTerminator0 }, none) := by
  simp [decStep, hs]

theorem decStep_term0_ne {cfg : Cfg} {d : Dec} {b : Byte} (hs : d.state = .awaitTerminator0) (hb : b ≠ cfg.term0) :
    decStep cfg d b = corrupt d := by
  simp [decStep, hs, hb]

theorem decStep_term0_eq {cfg : Cfg} {d : Dec} (hs : d.state = .awaitTerminator0) :
    decStep cfg d cfg.term0 = ({ d with state := .awaitTerminator1 }, none) := by
  simp [decStep, hs]

theorem decStep_term1_ne {cfg : Cfg} {d : Dec} {b : Byte} (hs : d.state = .awaitTerminator1) (hb : b ≠ cfg.term1) :
    decStep cfg d b = corrupt d := by
  simp [decStep, hs, hb]

/-! ### Runs of bytes -/

/-- One byte more than a run whose outcome is known. -/
theorem decBytes_concat {cfg : Cfg} {xs : List Byte} {d e : Dec} {evs : List DecEvent} (h : decBytes cfg xs d = (e, evs))
    (b : Byte) : decBytes cfg (xs ++ [b]) d = ((decStep cfg e b).1, evs ++ (decStep cfg e b).2.toList) := by
  simp [decBytes_append, h, decBytes]

/-- DEC_BYTE operations one after the other, by what the bytes do to the decoder. -/
theorem execDec_of_decBytes {bs : List Byte} {s : State} {e : Dec} {evs : List DecEvent}
    (h : decBytes s.cfg bs s.dec = (e, evs)) : execDec bs s = .next ((s.withDec e).emitDec evs) := by
  rw [execDec_eq, receiveBytes_eq, h]

/-- The bytes give FRAME_CORRUPT as their one event and leave the decoder in AwaitHeader (R169). -/
def endsCorrupt (cfg : Cfg) (d : Dec) (bs : List Byte) : Prop :=
  ∃ e, decBytes cfg bs d = (e, [.error .frameCorrupt]) ∧ e.state = .awaitHeader

/-- A silent run and a byte that the decoder refuses. -/
theorem endsCorrupt_concat {cfg : Cfg} {xs : List Byte} {d e e' : Dec} {b : Byte} (h : decBytes cfg xs d = (e, []))
    (hb : decStep cfg e b = corrupt e') : endsCorrupt cfg d (xs ++ [b]) :=
  ⟨{ e' with state := .awaitHeader }, by rw [decBytes_concat h, hb]; rfl, rfl⟩

/-! ### The header -/

/-- After a header byte and the low length byte the decoder awaits the high one (R161, R162). -/
theorem decBytes_opcode_lenLo {cfg : Cfg} (hd : cfg.opcodes.Nodup) (k : Kind) (lo : Byte) {d : Dec}
    (hs : d.state = .awaitHeader) :
    decBytes cfg [opcodeOf cfg k, lo] d =
      ({ d with kind := k, lenLo := lo, acc := [opcodeOf cfg k, lo].foldl (ckUpdate cfg) ckInit,
                state := .awaitLength1 }, []) := by
  simp [decBytes, decStep, hs, kindOf_own hd]

/-- A length over MAX_PAYLOAD or of the wrong shape is refused on the high length byte (R163). -/
theorem endsCorrupt_header {cfg : Cfg} (hd : cfg.opcodes.Nodup) {k : Kind} {len : Half} {d : Dec}
    (hs : d.state = .awaitHeader) (hbad : cfg.maxPayload.toNat < len.toNat ∨ shapeOk cfg k len.toNat = false) :
    endsCorrupt cfg d [opcodeOf cfg k, loByte len, hiByte len] :=
  endsCorrupt_concat (decBytes_opcode_lenLo hd k (loByte len) hs)
    (decStep_length1_refused rfl (by simpa using hbad))

/-- An accepted length is stored; with length 0 the checksum follows, else the payload from entry 0 on (R163). -/
theorem decBytes_header {cfg : Cfg} (hd : cfg.opcodes.Nodup) {k : Kind} {len : Half} {d : Dec}
    (hs : d.state = .awaitHeader) (hmax : len.toNat ≤ cfg.maxPayload.toNat) (hshape : shapeOk cfg k len.toNat = true) :
    decBytes cfg [opcodeOf cfg k, loByte len, hiByte len] d =
      ({ d with kind := k, lenLo := loByte len, len := len, count := if len = 0 then d.count else 0,
                acc := [opcodeOf cfg k, loByte len, hiByte len].foldl (ckUpdate cfg) ckInit,
                state := if len = 0 then .awaitChecksum else .awaitPayload }, []) := by
  have hrun := decBytes_concat (decBytes_opcode_lenLo hd k (loByte len) hs) (hiByte len)
  rw [decStep_length1_accepted rfl (by simpa using hmax) (by simpa using hshape)] at hrun
  simp only [joinLE_loByte_hiByte] at hrun
  exact hrun

/-- The bytes of a frame up to its payload's last are taken without an event, and leave the decoder before the checksum byte with the payload in BUF and its checksum in DEC.acc (R161 to R164). -/
theorem decBytes_header_payload {cfg : Cfg} (hd : cfg.opcodes.Nodup) {k : Kind} {len : Half} {p : List Byte} {d : Dec}
    (hs : d.state = .awaitHeader) (hp : p.length = len.toNat) (hmax : len.toNat ≤ cfg.maxPayload.toNat)
    (hshape : shapeOk cfg k len.toNat = true) :
    ∃ e, decBytes cfg (opcodeOf cfg k :: loByte len :: hiByte len :: p) d = (e, []) ∧ e.state = .awaitChecksum ∧
      e.kind = k ∧ bufPayload e = p ∧ ckFinal e.acc = ck cfg (opcodeOf cfg k :: loByte len :: hiByte len :: p) := by
  have hhdr := decBytes_header hd hs hmax hshape
  by_cases h0 : len = 0
  · subst h0
    obtain rfl : p = [] := List.eq_nil_of_length_eq_zero hp
    exact ⟨_, hhdr, rfl, rfl, rfl, rfl⟩
  · have hne : p ≠ [] := by
      rintro rfl
      exact h0 (BitVec.eq_of_toNat_eq hp.symm)
    rw [if_neg h0, if_neg h0] at hhdr
    have hrun := decBytes_append cfg [opcodeOf cfg k, loByte len, hiByte len] p d
    rw [hhdr] at hrun
    obtain ⟨hev, hstate, -, hacc, hkind, hlen, hbuf⟩ := decBytes_payload (cfg := cfg) p
      (d := { d with kind := k, lenLo := loByte len, len := len, count := 0,
                     acc := [opcodeOf cfg k, loByte len, hiByte len].foldl (ckUpdate cfg) ckInit,
                     state := .awaitPayload }) rfl hne (by simp [hp])
    refine ⟨_, hrun.trans (by rw [hev]; rfl), by simpa [hp] using hstate, hkind, ?_, ?_⟩
    · refine List.ext_getElem (by rw [bufPayload_length, hlen, hp]) fun i _ hi => ?_
      have hread := hbuf i
      rw [if_pos ⟨Nat.zero_le i, by simpa using hi⟩] at hread
      simp only [bufPayload, List.getElem_map, List.getElem_range, bufRead, hread]
      simp [hi]
    · rw [hacc]; rfl

/-! ### Illegal frames -/

/-- What makes a frame illegal, in the order in which the decoder meets it (R94). -/
def illegalFrame (cfg : Cfg) (k : Kind) (f : FrameFields) : Prop :=
  cfg.maxPayload.toNat < f.len.toNat ∨ shapeOk cfg k f.len.toNat = false ∨
    f.checksum ≠ ck cfg (opcodeOf cfg k :: loByte f.len :: hiByte f.len :: f.payload) ∨
    f.term0 ≠ cfg.term0 ∨ f.term1 ≠ cfg.term1

/-- Some first bytes of an illegal frame end in the one that the decoder refuses: each case cuts the frame after the first field that is wrong. -/
theorem exists_endsCorrupt_of_illegalFrame {cfg : Cfg} (hd : cfg.opcodes.Nodup) {k : Kind} {f : FrameFields} {d : Dec}
    (hs : d.state = .awaitHeader) (hp : f.payload.length = f.len.toNat) (hbad : illegalFrame cfg k f) :
    ∃ bs, bs <+: frameBytes cfg k f ∧ endsCorrupt cfg d bs := by
  by_cases hlen : cfg.maxPayload.toNat < f.len.toNat ∨ shapeOk cfg k f.len.toNat = false
  case pos => exact ⟨_, ⟨f.payload ++ [f.checksum, f.term0, f.term1], rfl⟩, endsCorrupt_header hd hs hlen⟩
  obtain ⟨hmax, hshape⟩ : f.len.toNat ≤ cfg.maxPayload.toNat ∧ shapeOk cfg k f.len.toNat = true := by simpa using hlen
  obtain ⟨e, hrun, hstate, -, -, hck⟩ := decBytes_header_payload hd hs hp hmax hshape
  by_cases hc : f.checksum = ckFinal e.acc
  case neg =>
    exact ⟨_, ⟨[f.term0, f.term1], by simp [frameBytes, FrameFields.tail]⟩,
      endsCorrupt_concat hrun (decStep_checksum_ne hstate hc)⟩
  have hrun0 := decBytes_concat hrun f.checksum
  rw [hc, decStep_checksum_eq hstate] at hrun0
  by_cases h0 : f.term0 = cfg.term0
  case neg =>
    exact ⟨_, ⟨[f.term1], by simp [frameBytes, FrameFields.tail, hc]⟩,
      endsCorrupt_concat hrun0 (decStep_term0_ne rfl h0)⟩
  have hrun1 := decBytes_concat hrun0 f.term0
  rw [h0, decStep_term0_eq rfl] at hrun1
  have h1 : f.term1 ≠ cfg.term1 := by
    simpa [illegalFrame, Nat.not_lt.mpr hmax, hshape, hc.trans hck, h0] using hbad
  exact ⟨_, ⟨[], by simp [frameBytes, FrameFields.tail, hc, h0]⟩,
    endsCorrupt_concat hrun1 (decStep_term1_ne rfl h1)⟩

/-- Settles O23: the frame is cut after the byte on which the decoder refuses it. -/
theorem illegalFrameIsCorrupt : Obligations.IllegalFrameIsCorrupt := by
  intro s k f hd hs hp hbad
  obtain ⟨bs, hpre, e, hrun, hstate⟩ := exists_endsCorrupt_of_illegalFrame hd hs hp hbad
  refine ⟨bs.length, (s.withDec e).emitDec [.error .frameCorrupt], hpre.length_le, ?_, ?_, ?_⟩
  · rw [← List.prefix_iff_eq_take.mp hpre]
    exact execDec_of_decBytes hrun
  · simp
  · simpa using hstate

end Sys2Proof.Machine
end

section
/-! What ENC makes of a command (40_commands.md rules R120, R121), and when a report is faulted (R128). -/

namespace Sys2Proof.Machine

/-! ### The bytes of a frame -/

/-- The bytes of a frame before its checksum: the opcode, the length low byte first, the payload (R80). -/
def frameBody (cfg : Cfg) (k : Kind) (p : List Byte) : List Byte :=
  opcodeOf cfg k :: BitVec.ofNat 8 (p.length % 256) :: BitVec.ofNat 8 (p.length / 256) :: p

@[simp] theorem frameBody_length (cfg : Cfg) (k : Kind) (p : List Byte) : (frameBody cfg k p).length = 3 + p.length := by
  simp only [frameBody, List.length_cons]
  omega

/-- The checksum is taken over all that precedes it (R80, R120). -/
theorem frameOf_eq_frameBody_append (cfg : Cfg) (k : Kind) (p : List Byte) :
    frameOf cfg k p = frameBody cfg k p ++ [ck cfg (frameBody cfg k p), cfg.term0, cfg.term1] := rfl

theorem frameOf_length (cfg : Cfg) (k : Kind) (p : List Byte) : (frameOf cfg k p).length = 6 + p.length := by
  simp only [frameOf_eq_frameBody_append, List.length_append, frameBody_length, List.length_cons, List.length_nil]
  omega

theorem frameOf_take_frameBody (cfg : Cfg) (k : Kind) (p : List Byte) :
    (frameOf cfg k p).take (3 + p.length) = frameBody cfg k p :=
  List.take_left' (frameBody_length cfg k p)

theorem frameOf_getElem?_payload (cfg : Cfg) (k : Kind) {p : List Byte} {j : Nat} (hj : j < p.length) :
    (frameOf cfg k p)[3 + j]? = p[j]? := by
  have hbody : 3 + j < (frameBody cfg k p).length := by rw [frameBody_length]; omega
  rw [frameOf_eq_frameBody_append, List.getElem?_append_left hbody, Nat.add_comm]
  rfl

/-- The three bytes after the payload, by their place from its end (R80). -/
theorem frameOf_getElem?_after_payload (cfg : Cfg) (k : Kind) (p : List Byte) (i : Nat) :
    (frameOf cfg k p)[3 + p.length + i]? = [ck cfg (frameBody cfg k p), cfg.term0, cfg.term1][i]? := by
  rw [frameOf_eq_frameBody_append, List.getElem?_append_right (by simp), frameBody_length, Nat.add_sub_cancel_left]

/-! ### Which commands ENC takes, and what it does with each -/

/-- The conditions of R121 on a Print. -/
theorem encValid_print_iff {cfg : Cfg} {rows : List BitRow} :
    encValid cfg (.print rows) = true ↔
      1 ≤ rows.length ∧ (∀ r ∈ rows, r.length = cfg.rowBytes) ∧
        rows.length * cfg.rowBytes ≤ cfg.maxPayload.toNat := by
  simp [encValid, and_assoc]

/-- The three ways in which a Print is refused are the complement of R121's conditions. -/
theorem not_encValid_print_iff {cfg : Cfg} {rows : List BitRow} :
    ¬ encValid cfg (.print rows) = true ↔
      rows = [] ∨ (∃ r ∈ rows, r.length ≠ cfg.rowBytes) ∨ cfg.maxPayload.toNat < rows.length * cfg.rowBytes := by
  rw [encValid_print_iff, Nat.one_le_iff_ne_zero, ne_eq, List.length_eq_zero_iff]
  by_cases hempty : rows = []
  · simp [hempty]
  · simp only [hempty, not_false_eq_true, true_and, false_or, not_and_or, not_forall, Nat.not_le, exists_prop]

/-- Only a Print can be invalid (R121). -/
theorem encValid_iff_forall_print {cfg : Cfg} {cmd : Command} :
    encValid cfg cmd = true ↔ ∀ rows, cmd = .print rows → encValid cfg (.print rows) = true := by
  cases cmd <;> simp [encValid]

theorem exec_enc_valid {s : State} {cmd : Command} (hv : encValid s.cfg cmd = true) :
    exec (.enc cmd) s = .next (s.emitTx (frameOf s.cfg (commandKind cmd) (commandPayload cmd))) :=
  if_pos hv

theorem exec_enc_invalid {s : State} {cmd : Command} (hv : ¬ encValid s.cfg cmd = true) :
    exec (.enc cmd) s = .next (s.emitEncStatus (.encodeInvalid (commandKind cmd))) :=
  if_neg hv

/-- Settles O17: a valid command's frame is `frameOf` its kind and payload, read byte by byte; a refused Print is an invalid one. -/
theorem encEmitsOneFrameOrRefuses : Obligations.EncEmitsOneFrameOrRefuses := by
  constructor
  · intro s cmd k p hkp hvalid
    have hcmd : k = commandKind cmd ∧ p = commandPayload cmd := by
      cases cmd <;> exact Prod.mk.inj hkp
    obtain ⟨rfl, rfl⟩ := hcmd
    have hv : encValid s.cfg cmd = true :=
      encValid_iff_forall_print.mpr fun rows h => encValid_print_iff.mpr (hvalid rows h)
    refine ⟨_, exec_enc_valid hv, frameOf_length .., rfl, rfl, rfl, fun j => frameOf_getElem?_payload _ _, ?_, ?_, ?_⟩
    · rw [frameOf_take_frameBody]
      exact frameOf_getElem?_after_payload _ _ _ 0
    · rw [Nat.add_right_comm 3 1]
      exact frameOf_getElem?_after_payload _ _ _ 1
    · rw [Nat.add_right_comm 3 2]
      exact frameOf_getElem?_after_payload _ _ _ 2
  · intro s rows hbad
    exact exec_enc_invalid (not_encValid_print_iff.mpr hbad)

/-! ### Faulted reports -/

theorem faulted_iff (r : StatusReport) :
    StatusReport.faulted r = true ↔ (r.paperPresent = false ∨ r.overTemperature = true) := by
  simp [StatusReport.faulted]

/-- A bit of a status byte, read off its value as R88 numbers the bits. -/
theorem getLsbD_eq_true_iff (b : Byte) (i : Nat) : b.getLsbD i = true ↔ b.toNat / 2 ^ i % 2 = 1 := by
  rw [BitVec.getLsbD, Nat.testBit_eq_decide_div_mod_eq, decide_eq_true_iff]

/-- Settles O40: bit 0 of the status byte says paper out, bit 1 over temperature (R88). -/
theorem faultBitsArePaperOutAndOverTemp : Obligations.FaultBitsArePaperOutAndOverTemp := by
  refine ⟨faulted_iff, fun b => ?_⟩
  have hpaper : (statusOf b).paperPresent = false ↔ b.toNat % 2 = 1 := by
    simpa [statusOf] using getLsbD_eq_true_iff b 0
  have htemp : (statusOf b).overTemperature = true ↔ b.toNat / 2 % 2 = 1 := getLsbD_eq_true_iff b 1
  rw [faulted_iff, hpaper, htemp]

end Sys2Proof.Machine
end

section
/-! DEC_BYTE state by state: the byte that starts a frame, the length, the payload, the checksum, the terminator, and the event of a good frame (41_decoder.md rules R161, R162, R164 to R168). -/

namespace Sys2Proof.Machine

/-! ### What a step of the decoder makes of the state (R160) -/

theorem exec_decByte_silent {s : State} {b : Byte} {d : Dec} (h : decStep s.cfg s.dec b = (d, none)) :
    exec (.decByte b) s = .next { s with dec := d } := by
  change Host.Outcome.next (takeDecResult s (decStep s.cfg s.dec b)) = _
  simp [h, takeDecResult, State.withDec, State.emitDec]

theorem exec_decByte_event {s : State} {b : Byte} {d : Dec} {ev : DecEvent}
    (h : decStep s.cfg s.dec b = (d, some ev)) :
    exec (.decByte b) s = .next { s with dec := d, decOut := s.decOut ++ [ev] } :=
  congrArg (fun r => Host.Outcome.next (takeDecResult s r)) h

/-! ### The header and the low length byte -/

theorem decStep_header_none {cfg : Cfg} {d : Dec} {b : Byte} (hs : d.state = .awaitHeader) (hb : kindOf cfg b = none) :
    decStep cfg d b = (d, none) := by
  simp [decStep, hs, hb]

theorem decStep_header_some {cfg : Cfg} {d : Dec} {b : Byte} {k : Kind} (hs : d.state = .awaitHeader)
    (hb : kindOf cfg b = some k) :
    decStep cfg d b = ({ d with kind := k, acc := ckUpdate cfg ckInit b, state := .awaitLength0 }, none) := by
  simp [decStep, hs, hb]

theorem decStep_length0 {cfg : Cfg} {d : Dec} (b : Byte) (hs : d.state = .awaitLength0) :
    decStep cfg d b = ({ d with lenLo := b, acc := ckUpdate cfg d.acc b, state := .awaitLength1 }, none) := by
  simp [decStep, hs]

/-- Settles O24: the opcode lookup alone decides whether the byte starts a frame. -/
theorem byteInAwaitHeader : Obligations.ByteInAwaitHeader :=
  fun _ _ hs =>
    ⟨fun hb => exec_decByte_silent (decStep_header_none hs hb),
      fun _ hb => exec_decByte_silent (decStep_header_some hs hb)⟩

/-- Settles O25: no byte is looked up here, so a header byte is a length byte too. -/
theorem byteInAwaitLength0 : Obligations.ByteInAwaitLength0 :=
  fun _ b hs => exec_decByte_silent (decStep_length0 b hs)

/-! ### The payload -/

/-- Settles O27: DEC.count below DEC.len is an index of BUF, so the byte is stored, and the count does not wrap. -/
theorem byteInAwaitPayload : Obligations.ByteInAwaitPayload := by
  intro s b hs hc
  refine ⟨_, exec_decByte_silent (decStep_payload b hs hc), ?_, fun i hi => ?_, rfl, count_succ_toNat hc, rfl, rfl, rfl, rfl⟩
  · simp [bufRead, Memory.read?_write_same]
  · exact bufRead_congr (Memory.read?_write_other _ b hi) rfl

/-! ### The checksum and the terminator -/

/-- Settles O28: each of the two bytes is compared as it arrives. -/
theorem checksumAndFirstTerminatorByte : Obligations.ChecksumAndFirstTerminatorByte := by
  refine fun s b => ⟨?_, ?_, ?_⟩
  · rintro hs rfl
    exact exec_decByte_silent (decStep_checksum_eq hs)
  · rintro hs rfl
    exact exec_decByte_silent (decStep_term0_eq hs)
  · rintro (⟨hs, hb⟩ | ⟨hs, hb⟩)
    · exact exec_decByte_event (decStep_checksum_ne hs hb)
    · exact exec_decByte_event (decStep_term0_ne hs hb)

theorem decStep_term1_eq {cfg : Cfg} {d : Dec} (hs : d.state = .awaitTerminator1) :
    decStep cfg d cfg.term1 = ({ d with state := .awaitHeader }, some (build cfg d.kind (bufPayload d))) := by
  simp [decStep, hs]

/-! ### The event of a checked payload -/

theorem bufPayload_getElem? {d : Dec} {i : Nat} (hi : i < d.len.toNat) : (bufPayload d)[i]? = some (bufRead d i) := by
  simp [bufPayload, hi]

/-- Consecutive pieces of `w` bytes make up the front of a list. -/
theorem flatten_map_take_drop (p : List Byte) (w n : Nat) :
    ((List.range n).map fun i => (p.drop (i * w)).take w).flatten = p.take (n * w) := by
  induction n with
  | zero => simp
  | succ n ih => simp [List.range_succ, ih, Nat.succ_mul, List.take_add]

@[simp] theorem rowsOf_length (cfg : Cfg) (p : List Byte) : (rowsOf cfg p).length = p.length / cfg.rowBytes := by
  simp [rowsOf]

/-- A payload of whole rows is its rows, one after the other (R87). -/
theorem rowsOf_flatten {cfg : Cfg} {p : List Byte} (h : p.length % cfg.rowBytes = 0) : (rowsOf cfg p).flatten = p := by
  rw [rowsOf, flatten_map_take_drop, Nat.div_mul_cancel (Nat.dvd_of_mod_eq_zero h), List.take_length]

theorem length_of_mem_rowsOf {cfg : Cfg} {p : List Byte} {r : BitRow} (hr : r ∈ rowsOf cfg p) :
    r.length = cfg.rowBytes := by
  obtain ⟨i, hi, rfl⟩ := List.mem_map.mp hr
  have hrow : (i + 1) * cfg.rowBytes ≤ p.length :=
    (Nat.mul_le_mul_right _ (List.mem_range.mp hi)).trans (Nat.div_mul_le_self _ _)
  rw [Nat.succ_mul] at hrow
  rw [List.length_take, List.length_drop]
  omega

/-- Settles O29: the event is `build` of the bytes in BUF, read kind by kind; only PRINT needs its shape. -/
theorem lastTerminatorByte : Obligations.LastTerminatorByte := by
  refine fun s b hs => ⟨fun hb => exec_decByte_event (decStep_term1_ne hs hb), ?_⟩
  rintro rfl hshape
  have hlen := bufPayload_length s.dec
  refine ⟨bufPayload s.dec, build s.cfg s.dec.kind (bufPayload s.dec), hlen, fun _ => bufPayload_getElem?,
    exec_decByte_event (decStep_term1_eq hs), ?print, ?feed, ?setHeat, ?queryStatus, ?reset, ?statusReport⟩ <;> intro hk
  case print =>
    rw [hk] at hshape ⊢
    obtain ⟨-, hrows, -⟩ := shapeOk_print_iff.mp hshape
    exact ⟨_, rfl, rowsOf_flatten (by rw [hlen, hrows]), by rw [rowsOf_length, hlen], fun _ => length_of_mem_rowsOf⟩
  case feed =>
    rw [hk]
    exact ⟨_, rfl, joinLE_toNat _ _⟩
  all_goals rw [hk]; rfl

end Sys2Proof.Machine
end

section
/-! RAST_START, RAST_NEXT and RAST_RESTART on every state, and the row dot by dot (42_rasterizer.md rules R200 to R209). -/

namespace Sys2Proof.Machine

/-! ### RAST_START -/

/-- RAST_START binds when the sizes are not 0 and the output height fits its register (R200, R201). -/
theorem exec_rastStart_of_bindsImage {img : ImageDesc} {w : Word} (h : bindsImage img w) (dither : Bool) (s : State) :
    exec (.rastStart img w dither) s = .next (s.withRast
      { state := .active, img := img, W := w,
        H := BitVec.ofNat 32 (outHeight img.width.toNat img.height.toNat w.toNat), dither := dither, y := 0 }) := by
  obtain ⟨hwidth, hheight, hw, hH⟩ := h
  have hsizes : ¬ (img.width = 0 ∨ img.height = 0 ∨ w = 0) := not_or.mpr ⟨hwidth, not_or.mpr ⟨hheight, hw⟩⟩
  simp only [exec, execRastStart, if_neg hsizes, if_neg (Nat.not_le.mpr hH)]

/-- The failures of RAST_START are the complement of what binds. -/
theorem not_bindsImage_iff {img : ImageDesc} {w : Word} :
    ¬ bindsImage img w ↔
      img.width = 0 ∨ img.height = 0 ∨ w = 0 ∨ 2 ^ 32 ≤ outHeight img.width.toNat img.height.toNat w.toNat := by
  simp only [bindsImage, ne_eq, not_and_or, not_not, Nat.not_lt]

/-- A RAST_START that does not bind raises INVALID_IMAGE, whichever of the two tests fails. -/
theorem exec_rastStart_of_not_bindsImage {img : ImageDesc} {w : Word} (h : ¬ bindsImage img w) (dither : Bool) (s : State) :
    exec (.rastStart img w dither) s = .next (raiseError (.invalidImage img.width img.height w) s) := by
  by_cases hsizes : img.width = 0 ∨ img.height = 0 ∨ w = 0
  · simp only [exec, execRastStart, if_pos hsizes]
  · obtain ⟨hwidth, hheight, hw⟩ : img.width ≠ 0 ∧ img.height ≠ 0 ∧ w ≠ 0 := by simpa only [not_or] using hsizes
    have hH : 2 ^ 32 ≤ outHeight img.width.toNat img.height.toNat w.toNat :=
      Nat.not_lt.mp fun hlt => h ⟨hwidth, hheight, hw, hlt⟩
    simp only [exec, execRastStart, if_neg hsizes, if_pos hH]

/-- Settles O44: the statement's two cases are `bindsImage` and its complement; a failed start keeps RAST.y. -/
theorem rastStartBindsOrRefuses : Obligations.RastStartBindsOrRefuses := by
  rintro s img w dither H rfl
  constructor
  · exact fun hbinds => exec_rastStart_of_bindsImage hbinds dither s
  · exact fun hfails => ⟨s.rast.y, exec_rastStart_of_not_bindsImage (not_bindsImage_iff.mpr hfails) dither s⟩

/-! ### RAST_RESTART -/

/-- Settles O46: RAST.state alone decides. -/
theorem rastRestartRewinds : Obligations.RastRestartRewinds := by
  intro s
  constructor
  · intro hactive
    simp only [exec, execRastRestart, hactive, State.withRast]
  · intro hidle
    simp only [exec, execRastRestart, hidle, raiseError, State.emitRast]

/-! ### RAST_NEXT -/

theorem exec_rastNext_idle {s : State} (hidle : s.rast.state = .idle) :
    exec .rastNext s = .next { s with rastOut := s.rastOut ++ [.error .rastIdle] } := by
  simp only [execRastNext_eq, rastNextResult, hidle]

theorem exec_rastNext_end {s : State} (hactive : s.rast.state = .active) (hy : s.rast.y = s.rast.H) :
    exec .rastNext s = .next { s with rastOut := s.rastOut ++ [.endOfRows] } := by
  simp only [execRastNext_eq, rastNextResult, hactive, if_pos hy]

theorem exec_rastNext_row {s : State} {row : BitRow} (hactive : s.rast.state = .active) (hy : s.rast.y ≠ s.rast.H)
    (hrow : rastRow s.mem s.rast s.rast.y.toNat = .ok row) :
    exec .rastNext s = .next { s with
      rast := { s.rast with y := s.rast.y + 1 }, rastOut := s.rastOut ++ [.row row] } := by
  simp only [execRastNext_eq, rastNextResult, hactive, if_neg hy, hrow]

/-! ### The bits of a packed row -/

/-- Dot x of a packed row is bit 7 - (x mod 8) of byte x div 8; past the last dot the bits are 0 (R207, R208). -/
theorem packRow_bit {W x : Nat} (dots : List Bool) (hx : x / 8 < ceilDiv W 8) :
    ((packRow W dots).getD (x / 8) 0).getLsbD (7 - x % 8) = dots.getD x false := by
  have hbyte : (packRow W dots).getD (x / 8) 0 = packByte dots (x / 8) := by
    simp [packRow, List.getD_eq_getElem?_getD, hx]
  rw [hbyte, packByte_bit dots (x / 8) (x % 8) (Nat.mod_lt x (by decide)), Nat.div_add_mod]

theorem packRow_bit_dot {W x : Nat} (g : Nat → Bool) (hx : x < W) :
    ((packRow W ((List.range W).map g)).getD (x / 8) 0).getLsbD (7 - x % 8) = g x := by
  rw [packRow_bit _ (by unfold ceilDiv; omega)]
  simp [List.getD_eq_getElem?_getD, hx]

theorem packRow_bit_padding {W x : Nat} (g : Nat → Bool) (hW : W ≤ x)
    (hx : x < 8 * (packRow W ((List.range W).map g)).length) :
    ((packRow W ((List.range W).map g)).getD (x / 8) 0).getLsbD (7 - x % 8) = false := by
  rw [packRow_length] at hx
  rw [packRow_bit _ (by omega)]
  simp [List.getD_eq_getElem?_getD, hW]

/-! ### The row of a running conversion -/

/-- With every pixel byte of row y readable, the row is packed from the dots of R203 to R206. -/
theorem rastRow_of_pixels {m : Memory} {r : Rast} {y : Nat} {pix : Nat → Nat → Byte}
    (hread : ∀ x c, x < r.W.toNat → c < PixelFormat.channels r.img.format →
      m.read? (pixAddr r.img (srcCol r x) (srcRow r y) c) = some (pix x c)) :
    rastRow m r y = .ok (packRow r.W.toNat ((List.range r.W.toNat).map fun x =>
      dot (luminance r.img.format ((List.range (PixelFormat.channels r.img.format)).map (pix x)))
        (threshold r.dither x y))) :=
  rastRow_ok fun x hx => dotAt_ok fun c hc => hread x c hx hc

/-- R204 on the bytes of one pixel, channel by channel. -/
theorem luminance_map_range (fmt : PixelFormat) (p : Nat → Byte) :
    luminance fmt ((List.range (PixelFormat.channels fmt)).map p) =
      match fmt with
      | .gray8 => (p 0).toNat
      | .rgb888 => (77 * (p 0).toNat + 150 * (p 1).toNat + 29 * (p 2).toNat) / 256 := by
  cases fmt <;> rfl

/-- Settles O45: a readable row is the packed list of its dots, and each bit of it is read off by its place. -/
theorem rastNextFollowsThePipeline : Obligations.RastNextFollowsThePipeline := by
  refine fun s => ⟨exec_rastNext_idle, exec_rastNext_end, ?_⟩
  intro hactive hy C pix lum thr hC hread hlum hthr
  obtain rfl : C = PixelFormat.channels s.rast.img.format := hC
  have hrow := rastRow_of_pixels (m := s.mem) (r := s.rast) (y := s.rast.y.toNat) hread
  refine ⟨_, exec_rastNext_row hactive hy hrow, packRow_length _ _, fun x hx => ?_, fun x => packRow_bit_padding _⟩
  rw [packRow_bit_dot _ hx, luminance_map_range, hlum, hthr]
  rfl

end Sys2Proof.Machine
end

section
/-! CFG_LOAD of an invalid record, and DEC_CLEAR (43_control.md rules R251, R252). -/

namespace Sys2Proof.Machine

/-! ### The first failing check (R30) -/

theorem firstFailingCheck_of_opcodes {r : CfgRecord} (h : ¬ (CfgRecord.opcodes r).Nodup) :
    firstFailingCheck r = some 1 :=
  if_pos h

theorem firstFailingCheck_of_checksumAlg {r : CfgRecord} (hops : (CfgRecord.opcodes r).Nodup) (h : 1 < r.checksumAlg) :
    firstFailingCheck r = some 2 := by
  have halg : ¬ (r.checksumAlg = 0 ∨ r.checksumAlg = 1) := by omega
  rw [firstFailingCheck, if_neg (not_not.mpr hops), if_pos halg]

/-- With the first two checks met, the two size checks decide. -/
theorem firstFailingCheck_of_sizes {r : CfgRecord} (hops : (CfgRecord.opcodes r).Nodup) (hle : r.checksumAlg ≤ 1) :
    firstFailingCheck r =
      if ¬ 1 ≤ r.deviceWidth.toNat then some 3
      else if ¬ (max 2 (ceilDiv r.deviceWidth.toNat 8) ≤ r.maxPayload.toNat ∧ r.maxPayload.toNat ≤ 65535) then some 4
      else none := by
  have halg : r.checksumAlg = 0 ∨ r.checksumAlg = 1 := by omega
  rw [firstFailingCheck, if_neg (not_not.mpr hops), if_neg (not_not.mpr halg)]

theorem firstFailingCheck_of_deviceWidth {r : CfgRecord} (hops : (CfgRecord.opcodes r).Nodup) (hle : r.checksumAlg ≤ 1)
    (h : r.deviceWidth.toNat = 0) : firstFailingCheck r = some 3 := by
  rw [firstFailingCheck_of_sizes hops hle, if_pos (by omega)]

/-- The two ways to fail the last check are the two bounds on MAX_PAYLOAD. -/
theorem firstFailingCheck_of_maxPayload {r : CfgRecord} (hops : (CfgRecord.opcodes r).Nodup) (hle : r.checksumAlg ≤ 1)
    (hwidth : 1 ≤ r.deviceWidth.toNat)
    (h : r.maxPayload.toNat < max 2 (ceilDiv r.deviceWidth.toNat 8) ∨ 65535 < r.maxPayload.toNat) :
    firstFailingCheck r = some 4 := by
  rw [firstFailingCheck_of_sizes hops hle, if_neg (not_not.mpr hwidth), if_pos (by omega)]

/-! ### The control operations -/

/-- CONFIG_INVALID is an event on CFG_STATUS and no more (R251, R261). -/
theorem exec_cfgLoad_of_failing {r : CfgRecord} {n : Nat} (h : firstFailingCheck r = some n) (s : State) :
    exec (.cfgLoad r) s = .next { s with cfgStatus := s.cfgStatus ++ [.configInvalid n] } := by
  simp only [exec, execCfgLoad, h, raiseError, State.emitCfgStatus]

/-- Settles O42: each of the four cases names the first check that fails, and a failing check only emits its number. -/
theorem cfgLoadRefusesAnInvalidRecord : Obligations.CfgLoadRefusesAnInvalidRecord := by
  rintro s r n (⟨rfl, hops⟩ | ⟨rfl, hops, halg⟩ | ⟨rfl, hops, halg, hwidth⟩ | ⟨rfl, hops, halg, hwidth, hpayload⟩)
  · exact exec_cfgLoad_of_failing (firstFailingCheck_of_opcodes hops) s
  · exact exec_cfgLoad_of_failing (firstFailingCheck_of_checksumAlg hops halg) s
  · exact exec_cfgLoad_of_failing (firstFailingCheck_of_deviceWidth hops halg hwidth) s
  · exact exec_cfgLoad_of_failing (firstFailingCheck_of_maxPayload hops halg hwidth hpayload) s

/-- Settles O43: DEC_CLEAR writes DEC.state in whatever state the decoder is, and emits nothing. -/
theorem decClearOnlyMovesTheDecoderState : Obligations.DecClearOnlyMovesTheDecoderState :=
  fun _ => rfl

end Sys2Proof.Machine
end

section
/-! Block reset as the next input (70_reset_and_hazards.md rule R290). -/

namespace Sys2Proof.Machine

/-- Block reset is one step and cannot stop; only the inputs behind it stay pending (R290). -/
theorem step_of_blockReset {s : State} {later : List Input} (h : s.inputs = .blockReset :: later) :
    step s = .next (blockReset (s.withInputs later)) := by
  simp only [step, h]

/-- Settles O9: `blockReset` replaces the three register groups by their reset values and touches no stream. -/
theorem blockResetSetsEveryRegister : Obligations.BlockResetSetsEveryRegister := by
  intro s later h
  refine ⟨blockReset (s.withInputs later), step_of_blockReset h, ?cfg, ?state, ?kind, ?lenLo, ?len, ?count, ?acc, ?rast,
    ?tx, ?decOut, ?rastOut, ?cfgStatus, ?encStatus⟩
  case cfg => exact Cfg.reset.eq_def
  case rast => exact Rast.reset.eq_def
  case state | kind | lenLo | len | count | acc => rfl
  case tx | decOut | rastOut | cfgStatus | encStatus => rfl

end Sys2Proof.Machine
end

section
/-! The frame decoder against the bytes it reads, and decoding what was encoded (30_encoding.md rules R80 to R83, R93, R96). -/

namespace Sys2Proof

/-! ### decode of encode -/

/-- A well-formed instruction is read back from its transaction. -/
theorem decode_encode (i : Instr) : Laws.RoundTrip.Statement i := by
  cases i with
  | print f => exact Laws.RoundTrip.print f
  | feed f => exact Laws.RoundTrip.feed f
  | setHeat f => exact Laws.RoundTrip.setHeat f
  | queryStatus f => exact Laws.RoundTrip.queryStatus f
  | reset f => exact Laws.RoundTrip.reset f
  | statusReport f => exact Laws.RoundTrip.statusReport f
  | cfgLoad record => exact Laws.RoundTrip.cfgLoad record
  | decClear => exact Laws.RoundTrip.decClear
  | enc cmd => exact Laws.RoundTrip.enc cmd
  | decByte b => exact Laws.RoundTrip.decByte b
  | rastStart img w dither => exact Laws.RoundTrip.rastStart img w dither
  | rastNext => exact Laws.RoundTrip.rastNext
  | rastRestart => exact Laws.RoundTrip.rastRestart

/-- Settles O1: the round trip of each instruction, over all configurations with distinct opcodes. -/
theorem decodeReturnsEncodedInstruction : Obligations.DecodeReturnsEncodedInstruction :=
  fun cfg i => decode_encode i cfg

/-! ### What each answer of decodeFrame says of the bytes -/

/-- With a header byte and two length bytes in front, the bytes are long enough exactly when a frame is read (R96). -/
theorem decodeFrame_of_header {cfg : Cfg} {op : Byte} {k : Kind} (hk : kindOf cfg op = some k) (lo hi : Byte)
    (body : List Byte) :
    (body.length < (joinLE lo hi).toNat + 3 ∧ decodeFrame cfg (op :: lo :: hi :: body) = .error .truncated) ∨
    ∃ p c t0 t1 after, p.length = (joinLE lo hi).toNat ∧ body = p ++ c :: t0 :: t1 :: after ∧
      decodeFrame cfg (op :: lo :: hi :: body) =
        .ok (frameInstr k { len := joinLE lo hi, payload := p, checksum := c, term0 := t0, term1 := t1 }, after) := by
  by_cases hshort : body.length < (joinLE lo hi).toNat + 3
  · refine .inl ⟨hshort, ?_⟩
    have hdrop : (body.drop (joinLE lo hi).toNat).length < 3 := by rw [List.length_drop]; omega
    simp only [decodeFrame, hk]
    split
    · rename_i heq
      simp only [heq, List.length_cons] at hdrop
      omega
    · rfl
  · right
    match hdrop : body.drop (joinLE lo hi).toNat with
    | c :: t0 :: t1 :: after =>
      refine ⟨body.take (joinLE lo hi).toNat, c, t0, t1, after, ?_, ?_, ?_⟩
      · rw [List.length_take]; omega
      · rw [← hdrop, List.take_append_drop]
      · simp only [decodeFrame, hk, hdrop]
    | [] | [_] | [_, _] =>
      have hlen := congrArg List.length hdrop
      simp only [List.length_drop, List.length_cons, List.length_nil] at hlen
      omega

theorem decodeFrame_of_notHeader {cfg : Cfg} {op : Byte} (hk : kindOf cfg op = none) (rest : List Byte) :
    decodeFrame cfg (op :: rest) = .error (.notHeader op) := by
  simp only [decodeFrame, hk]

/-- A header byte with less than two length bytes behind it is no whole frame. -/
theorem decodeFrame_of_no_length {cfg : Cfg} {op : Byte} {rest : List Byte} (hk : kindOf cfg op ≠ none)
    (hrest : rest.length < 2) : decodeFrame cfg (op :: rest) = .error .truncated := by
  obtain ⟨k, hk⟩ := Option.ne_none_iff_exists'.mp hk
  match rest with
  | [] | [_] => simp only [decodeFrame, hk]
  | _ :: _ :: _ => simp at hrest

/-- A frame that is read stands in front, opcode first and length low byte first (R80, R82). -/
theorem decodeFrame_ok {cfg : Cfg} {bs : List Byte} {i : Instr} {after : List Byte}
    (h : decodeFrame cfg bs = .ok (i, after)) :
    ∃ (k : Kind) (f : FrameFields), i = frameInstr k f ∧ f.wf = true ∧ bs = frameBytes cfg k f ++ after := by
  match bs with
  | [] => simp [decodeFrame] at h
  | op :: rest =>
    match hk : kindOf cfg op with
    | none => simp [decodeFrame_of_notHeader hk] at h
    | some k =>
      match rest with
      | [] | [_] => simp [decodeFrame_of_no_length (cfg := cfg) (op := op), hk] at h
      | lo :: hi :: body =>
        obtain ⟨-, herr⟩ | ⟨p, c, t0, t1, after', hp, rfl, hok⟩ := decodeFrame_of_header hk lo hi body
        · simp [herr] at h
        · rw [hok] at h
          cases h
          exact ⟨k, _, rfl, by simp [FrameFields.wf, hp], by
            simp [frameBytes, FrameFields.tail, eq_opcodeOf_of_kindOf hk]⟩

/-- Settles O2: the frame in front is `frameBytes`, spelled out. -/
theorem decodedFrameIsThePrefix : Obligations.DecodedFrameIsThePrefix := by
  intro cfg bs i after h
  obtain ⟨k, f, hi, hwf, hbs⟩ := decodeFrame_ok h
  exact ⟨k, f, hi, by simpa [FrameFields.wf] using hwf, hbs⟩

/-- Bytes are cut short when a header byte is in front and the length or the announced frame is not all there (R96). -/
def isTruncated (cfg : Cfg) (bs : List Byte) : Prop :=
  ∃ op more, bs = op :: more ∧ kindOf cfg op ≠ none ∧
    (more.length < 2 ∨ bs.length < 6 + ((more.getD 0 0).toNat + 256 * (more.getD 1 0).toNat))

/-- The four cases of the frame decoder, of which each byte list meets exactly one. -/
theorem decodeFrame_cases (cfg : Cfg) (bs : List Byte) :
    (bs = [] ∧ decodeFrame cfg bs = .error .noBytes) ∨
    (∃ op more, bs = op :: more ∧ kindOf cfg op = none ∧ decodeFrame cfg bs = .error (.notHeader op)) ∨
    (isTruncated cfg bs ∧ decodeFrame cfg bs = .error .truncated) ∨
    (¬ isTruncated cfg bs ∧ (∃ op more, bs = op :: more ∧ kindOf cfg op ≠ none) ∧
      ∃ r, decodeFrame cfg bs = .ok r) := by
  match bs with
  | [] => exact .inl ⟨rfl, rfl⟩
  | op :: rest =>
    right
    match hk : kindOf cfg op with
    | none => exact .inl ⟨op, rest, rfl, hk, decodeFrame_of_notHeader hk rest⟩
    | some k =>
      right
      have hne : kindOf cfg op ≠ none := by simp [hk]
      match rest with
      | [] | [_] => exact .inl ⟨⟨op, _, rfl, hne, .inl (by simp)⟩, decodeFrame_of_no_length hne (by simp)⟩
      | lo :: hi :: body =>
        have hL := joinLE_toNat lo hi
        obtain ⟨hshort, herr⟩ | ⟨p, c, t0, t1, after, hp, rfl, hok⟩ := decodeFrame_of_header hk lo hi body
        · refine .inl ⟨⟨op, _, rfl, hne, .inr ?_⟩, herr⟩
          simp only [List.length_cons, List.getD_cons_zero, List.getD_cons_succ]
          omega
        · refine .inr ⟨?_, ⟨op, _, rfl, hne⟩, _, hok⟩
          rintro ⟨op', more, heq, -, hshort⟩
          cases heq
          simp only [List.length_cons, List.length_append, List.getD_cons_zero, List.getD_cons_succ] at hshort
          omega

/-- Settles O3: the four cases exclude each other, so each rejection names its own. -/
theorem frameDecoderRejectsByName : Obligations.FrameDecoderRejectsByName := by
  intro cfg bs
  change _ ∧ _ ∧ (_ ↔ isTruncated cfg bs)
  obtain ⟨rfl, h⟩ | ⟨op, more, rfl, hk, h⟩ | ⟨⟨op, more, rfl, hk, hshort⟩, h⟩ |
    ⟨htr, ⟨op, more, rfl, hk⟩, r, h⟩ := decodeFrame_cases cfg bs
  · simp [h, isTruncated]
  · simp [h, isTruncated, hk]
  · have : isTruncated cfg (op :: more) := ⟨op, more, rfl, hk, hshort⟩
    simp [h, this, hk]
  · simp [h, htr, hk]

/-- Settles O5: each of the six frames is read by evaluating the frame decoder on its bytes. -/
theorem sampleFramesDecode : Obligations.SampleFramesDecode := by
  refine ⟨?_, ?_, ?_, ?_, ?_, ?_⟩ <;> rfl

end Sys2Proof
end

section
/-! What a valid configuration record promises (10_state.md rule R30), and CFG_LOAD of one (43_control.md rule R250). -/

namespace Sys2Proof.Machine

/-- A record is valid when it meets the four checks of R30. -/
theorem firstFailingCheck_eq_none_iff {r : CfgRecord} :
    firstFailingCheck r = none ↔
      (CfgRecord.opcodes r).Nodup ∧ (r.checksumAlg = 0 ∨ r.checksumAlg = 1) ∧ 1 ≤ r.deviceWidth.toNat ∧
        max 2 (ceilDiv r.deviceWidth.toNat 8) ≤ r.maxPayload.toNat ∧ r.maxPayload.toNat ≤ 65535 := by
  unfold firstFailingCheck
  split_ifs <;> simp_all

/-- On registers, the two range checks of CHECKSUM_ALG and of MAX_PAYLOAD from above are met by their types. -/
theorem cfgValid_iff {c : Cfg} :
    cfgValid c ↔ c.opcodes.Nodup ∧ 1 ≤ c.deviceWidth.toNat ∧ max 2 c.rowBytes ≤ c.maxPayload.toNat := by
  have halg : (recordOf c).checksumAlg = 0 ∨ (recordOf c).checksumAlg = 1 := by
    simp only [recordOf]
    cases c.checksumAlg <;> simp
  have hmax : (recordOf c).maxPayload.toNat = c.maxPayload.toNat := by
    simp only [recordOf, BitVec.toNat_setWidth]
    omega
  have hle : c.maxPayload.toNat ≤ 65535 := by omega
  rw [cfgValid, firstFailingCheck_eq_none_iff, hmax]
  exact ⟨fun ⟨hops, _, hwidth, hpayload, _⟩ => ⟨hops, hwidth, hpayload⟩,
    fun ⟨hops, hwidth, hpayload⟩ => ⟨hops, halg, hwidth, hpayload, hle⟩⟩

theorem cfgValid_reset : cfgValid Cfg.reset := by decide

/-- ROW_BYTES is at least 1 (R29, R30). -/
theorem rowBytes_pos {c : Cfg} (h : cfgValid c) : 0 < c.rowBytes := by
  obtain ⟨-, hwidth, -⟩ := cfgValid_iff.mp h
  unfold Cfg.rowBytes ceilDiv
  omega

theorem maxPayload_cfgOf {r : CfgRecord} (h : r.maxPayload.toNat ≤ 65535) :
    (cfgOf r).maxPayload.toNat = r.maxPayload.toNat := by
  simp only [cfgOf, BitVec.toNat_setWidth]
  omega

/-- The registers that a valid record is loaded into are a valid record again (R31). -/
theorem cfgValid_cfgOf {r : CfgRecord} (h : firstFailingCheck r = none) : cfgValid (cfgOf r) := by
  obtain ⟨hops, -, hwidth, hpayload, hle⟩ := firstFailingCheck_eq_none_iff.mp h
  exact cfgValid_iff.mpr ⟨hops, hwidth, by rw [maxPayload_cfgOf hle]; exact hpayload⟩

theorem exec_cfgLoad_of_valid {r : CfgRecord} (h : firstFailingCheck r = none) (s : State) :
    exec (.cfgLoad r) s = .next ((s.withCfg (cfgOf r)).withDec { s.dec with state := .awaitHeader }) := by
  simp only [exec, execCfgLoad, h]

/-- Settles O41: the premises are the four checks, and `cfgOf` is the record loaded field by field. -/
theorem cfgLoadTakesAValidRecord : Obligations.CfgLoadTakesAValidRecord := by
  intro s r hops halg hwidth hpayload hle
  have hcfg : cfgOf r =
      { opcPrint := r.opcPrint, opcFeed := r.opcFeed, opcSetHeat := r.opcSetHeat,
        opcQueryStatus := r.opcQueryStatus, opcReset := r.opcReset, opcStatusReport := r.opcStatusReport,
        term0 := r.term0, term1 := r.term1, checksumAlg := if r.checksumAlg = 1 then .crc8 else .sum8,
        maxPayload := BitVec.ofNat 16 r.maxPayload.toNat, deviceWidth := r.deviceWidth } := by
    obtain h0 | h1 := halg
    · simp [cfgOf, h0]
    · simp [cfgOf, h1]
  rw [exec_cfgLoad_of_valid (firstFailingCheck_eq_none_iff.mpr ⟨hops, halg, hwidth, hpayload, hle⟩), hcfg]
  rfl

end Sys2Proof.Machine
end

section
/-! A legal frame gives its event on its last byte and nothing before (40_commands.md rules R122 to R129, 41_decoder.md rule R171). -/

namespace Sys2Proof.Machine

/-! ### Bytes that end in an event -/

/-- The bytes give one event, on the last of them. -/
def endsWith (cfg : Cfg) (d : Dec) (bs : List Byte) (ev : DecEvent) : Prop :=
  ∃ xs b e, bs = xs ++ [b] ∧ decBytes cfg xs d = (e, []) ∧ (decStep cfg e b).2 = some ev

/-- The event leaves the decoder in AwaitHeader. -/
theorem execDec_of_endsWith {s : State} {bs : List Byte} {ev : DecEvent} (h : endsWith s.cfg s.dec bs ev) :
    ∃ e, execDec bs s = .next { s with dec := e, decOut := s.decOut ++ [ev] } ∧ e.state = .awaitHeader := by
  obtain ⟨xs, b, e, rfl, hrun, hev⟩ := h
  have hrun' : decBytes s.cfg (xs ++ [b]) s.dec = ((decStep s.cfg e b).1, [ev]) := by
    rw [decBytes_concat hrun, hev]
    rfl
  exact ⟨(decStep s.cfg e b).1, execDec_of_decBytes hrun', decStep_event hev⟩

/-- The first bytes of a silent run are a silent run. -/
theorem decBytes_silent_of_append {cfg : Cfg} {xs ys : List Byte} {d : Dec} (h : (decBytes cfg (xs ++ ys) d).2 = []) :
    (decBytes cfg xs d).2 = [] := by
  rw [decBytes_append] at h
  exact (List.append_eq_nil_iff.mp h).1

theorem execDec_of_silent {s : State} {bs : List Byte} (h : (decBytes s.cfg bs s.dec).2 = []) :
    ∃ v, execDec bs s = .next v ∧ v.decOut = s.decOut := by
  refine ⟨_, execDec_of_decBytes rfl, ?_⟩
  simp [h]

/-- Before the last byte there is no event. -/
theorem take_silent_of_endsWith {s : State} {bs : List Byte} {ev : DecEvent} (h : endsWith s.cfg s.dec bs ev) {n : Nat}
    (hn : n < bs.length) : ∃ v, execDec (bs.take n) s = .next v ∧ v.decOut = s.decOut := by
  obtain ⟨xs, b, e, rfl, hrun, -⟩ := h
  have hn' : n ≤ xs.length := by simpa [Nat.lt_succ_iff] using hn
  rw [List.take_append_of_le_length hn']
  refine execDec_of_silent (decBytes_silent_of_append (ys := xs.drop n) ?_)
  rw [List.take_append_drop, hrun]

/-- Silent bytes in front change nothing of this. -/
theorem endsWith_append_left {cfg : Cfg} {d d' : Dec} {g bs : List Byte} {ev : DecEvent}
    (hg : decBytes cfg g d = (d', [])) (h : endsWith cfg d' bs ev) : endsWith cfg d (g ++ bs) ev := by
  obtain ⟨xs, b, e, rfl, hrun, hev⟩ := h
  refine ⟨g ++ xs, b, e, by rw [List.append_assoc], ?_, hev⟩
  rw [decBytes_append, hg, hrun]
  rfl

/-! ### Legal payloads -/

/-- A payload that a kind may carry under a configuration (R84, R94). -/
def legalPayload (cfg : Cfg) (k : Kind) (p : List Byte) : Prop :=
  p.length ≤ cfg.maxPayload.toNat ∧ shapeOk cfg k p.length = true

/-- The length of a legal payload fits the length field. -/
theorem legalPayload.toNat_ofNat_length {cfg : Cfg} {k : Kind} {p : List Byte} (h : legalPayload cfg k p) :
    (BitVec.ofNat 16 p.length).toNat = p.length := by
  have := cfg.maxPayload.isLt
  have := h.1
  rw [BitVec.toNat_ofNat]
  exact Nat.mod_eq_of_lt (by omega)

/-- Two bytes are the longest payload of a kind other than PRINT, and a valid MAX_PAYLOAD is at least 2 (R30, R84). -/
theorem legalPayload_of_shapeOk {cfg : Cfg} (hcfg : cfgValid cfg) {k : Kind} {p : List Byte}
    (h : shapeOk cfg k p.length = true) : legalPayload cfg k p := by
  refine ⟨?_, h⟩
  obtain ⟨-, -, hmax⟩ := cfgValid_iff.mp hcfg
  cases k with
  | print => exact (shapeOk_print_iff.mp h).2.2
  | feed | setHeat | queryStatus | reset | statusReport =>
    have hlen := beq_iff_eq.mp h
    omega

theorem flatten_length_of_rows {w : Nat} {rows : List BitRow} (h : ∀ r ∈ rows, r.length = w) :
    rows.flatten.length = rows.length * w := by
  rw [List.length_flatten, List.map_congr_left h, List.map_const', List.sum_replicate, smul_eq_mul]

/-- The payload of whole rows is cut into these rows again (R87). -/
theorem rowsOf_flatten_rows {cfg : Cfg} {rows : List BitRow} (hpos : 0 < cfg.rowBytes)
    (h : ∀ r ∈ rows, r.length = cfg.rowBytes) : rowsOf cfg rows.flatten = rows := by
  induction rows with
  | nil => simp [rowsOf]
  | cons r rows ih =>
    obtain ⟨hr, hrows⟩ := List.forall_mem_cons.mp h
    have hcount : (r :: rows).flatten.length / cfg.rowBytes = rows.flatten.length / cfg.rowBytes + 1 := by
      rw [List.flatten_cons, List.length_append, hr, Nat.add_div_left _ hpos]
    rw [rowsOf, hcount, List.range_succ_eq_map, List.map_cons, List.map_map, List.flatten_cons]
    congr 1
    · simp [← hr]
    · refine Eq.trans (List.map_congr_left fun i _ => ?_) (ih hrows)
      simp [Nat.succ_mul, Nat.add_comm, ← hr, ← List.drop_drop]

/-- A valid command's payload is legal for its kind, and `build` gives the command back (R121, R129, R168). -/
theorem legalPayload_of_encValid {cfg : Cfg} (hcfg : cfgValid cfg) {cmd : Command} (h : encValid cfg cmd = true) :
    legalPayload cfg (commandKind cmd) (commandPayload cmd) := by
  refine legalPayload_of_shapeOk hcfg ?_
  cases cmd with
  | print rows =>
    obtain ⟨hne, hrows, hmax⟩ := encValid_print_iff.mp h
    rw [commandPayload, flatten_length_of_rows hrows]
    exact shapeOk_print_iff.mpr ⟨Nat.mul_pos hne (rowBytes_pos hcfg), Nat.mul_mod_left .., hmax⟩
  | feed | setHeat | queryStatus | reset => rfl

theorem build_commandPayload {cfg : Cfg} (hcfg : cfgValid cfg) {cmd : Command} (h : encValid cfg cmd = true) :
    build cfg (commandKind cmd) (commandPayload cmd) = .frame cmd := by
  cases cmd with
  | print rows =>
    obtain ⟨-, hrows, -⟩ := encValid_print_iff.mp h
    simp only [build, commandKind, commandPayload, rowsOf_flatten_rows (rowBytes_pos hcfg) hrows]
  | feed n => simp [build, commandKind, commandPayload, payloadByte]
  | setHeat | queryStatus | reset => rfl

/-! ### The frame of a legal payload -/

/-- The two length bytes are those of the 16-bit length field (R82). -/
theorem frameBody_eq {cfg : Cfg} {k : Kind} {p : List Byte} (h : legalPayload cfg k p) :
    frameBody cfg k p =
      opcodeOf cfg k :: loByte (BitVec.ofNat 16 p.length) :: hiByte (BitVec.ofNat 16 p.length) :: p := by
  have := cfg.maxPayload.isLt
  have := h.1
  rw [frameBody, loByte_ofNat, hiByte_ofNat (by omega)]

/-- The frame up to its payload is taken in silence; its checksum and the payload stand in the decoder after it. -/
theorem decBytes_frameBody {cfg : Cfg} (hcfg : cfgValid cfg) {k : Kind} {p : List Byte} (hp : legalPayload cfg k p)
    {d : Dec} (hs : d.state = .awaitHeader) :
    ∃ e, decBytes cfg (frameBody cfg k p) d = (e, []) ∧ e.state = .awaitChecksum ∧ e.kind = k ∧ bufPayload e = p ∧
      ckFinal e.acc = ck cfg (frameBody cfg k p) := by
  obtain ⟨hops, -, -⟩ := cfgValid_iff.mp hcfg
  have hlen := hp.toNat_ofNat_length
  rw [frameBody_eq hp]
  exact decBytes_header_payload hops hs hlen.symm (by rw [hlen]; exact hp.1) (by rw [hlen]; exact hp.2)

/-- A frame with a legal payload gives its event on the second terminator byte (R167, R168). -/
theorem endsWith_frameOf {cfg : Cfg} (hcfg : cfgValid cfg) {k : Kind} {p : List Byte} (hp : legalPayload cfg k p)
    {d : Dec} (hs : d.state = .awaitHeader) : endsWith cfg d (frameOf cfg k p) (build cfg k p) := by
  obtain ⟨e, hrun, hstate, hkind, hpayload, hck⟩ := decBytes_frameBody hcfg hp hs
  have hrun0 := decBytes_concat hrun (ck cfg (frameBody cfg k p))
  rw [← hck, decStep_checksum_eq hstate] at hrun0
  have hrun1 := decBytes_concat hrun0 cfg.term0
  rw [decStep_term0_eq rfl] at hrun1
  refine ⟨_, cfg.term1, _, ?_, hrun1, ?_⟩
  · simp [frameOf_eq_frameBody_append, hck]
  · rw [decStep_term1_eq rfl, ← hkind, ← hpayload]
    rfl

/-- The frame of a valid command gives the command (R129). -/
theorem endsWith_command {cfg : Cfg} (hcfg : cfgValid cfg) {cmd : Command} (h : encValid cfg cmd = true) {d : Dec}
    (hs : d.state = .awaitHeader) :
    endsWith cfg d (frameOf cfg (commandKind cmd) (commandPayload cmd)) (.frame cmd) := by
  rw [← build_commandPayload hcfg h]
  exact endsWith_frameOf hcfg (legalPayload_of_encValid hcfg h) hs

/-- Settles O19: ENC leaves CFG and DEC alone, so its frame meets the decoder that it was made for. -/
theorem encodedCommandDecodesBack : Obligations.EncodedCommandDecodesBack := by
  intro s cmd hcfg hv hs
  have hends : endsWith (s.emitTx (frameOf s.cfg (commandKind cmd) (commandPayload cmd))).cfg
      (s.emitTx (frameOf s.cfg (commandKind cmd) (commandPayload cmd))).dec _ _ := endsWith_command hcfg hv hs
  obtain ⟨e, hrun, hstate⟩ := execDec_of_endsWith hends
  exact ⟨_, _, _, exec_enc_valid hv, rfl, hrun, hstate, rfl, fun n hn => take_silent_of_endsWith hends hn⟩

/-- Bytes that are no header byte pass AwaitHeader without a trace (R161, R171). -/
theorem decBytes_garbage {cfg : Cfg} {g : List Byte} {d : Dec} (hs : d.state = .awaitHeader)
    (hg : ∀ b ∈ g, kindOf cfg b = none) : decBytes cfg g d = (d, []) := by
  induction g with
  | nil => rfl
  | cons b g ih =>
    obtain ⟨hb, hg⟩ := List.forall_mem_cons.mp hg
    simp only [decBytes, decStep_header_none hs hb, ih hg]
    rfl

/-- Settles O20: the garbage is silent, and the frame behind it meets the decoder as it was. -/
theorem garbageBeforeAFrameIsSkipped : Obligations.GarbageBeforeAFrameIsSkipped := by
  rintro s g cmd hcfg hv hs hg _ rfl
  have hends := endsWith_append_left (decBytes_garbage hs hg) (endsWith_command hcfg hv hs)
  obtain ⟨e, hrun, hstate⟩ := execDec_of_endsWith hends
  exact ⟨⟨_, hrun, rfl, hstate⟩, fun n hn => take_silent_of_endsWith hends hn⟩

/-! ### The frame instructions (log 2) -/

/-- A frame instruction is the execution of its bytes (R80, R97). -/
theorem exec_frameInstr (k : Kind) (f : FrameFields) (s : State) :
    exec (frameInstr k f) s = execDec (frameBytes s.cfg k f) s := by
  rw [execDec_eq]
  cases k <;> rfl

/-- Settles O31: `exec_frameInstr`, kind by kind. -/
theorem frameInstructionsAreTheirBytes : Obligations.FrameInstructionsAreTheirBytes := by
  rintro s f rest rfl
  exact ⟨exec_frameInstr .print f s, exec_frameInstr .feed f s, exec_frameInstr .setHeat f s,
    exec_frameInstr .queryStatus f s, exec_frameInstr .reset f s, exec_frameInstr .statusReport f s⟩

/-- The bytes of the legal frame instruction are the frame of R80. -/
theorem frameBytes_legalFields {cfg : Cfg} {k : Kind} {p : List Byte} (h : legalPayload cfg k p) :
    frameBytes cfg k (legalFields cfg k p) = frameOf cfg k p := by
  rw [frameOf_eq_frameBody_append, frameBody_eq h]
  rfl

/-- A legal frame instruction gives its event and changes DEC and DEC_OUT alone. -/
theorem exec_legalFrame {s : State} (hcfg : cfgValid s.cfg) (hs : s.dec.state = .awaitHeader) {k : Kind} {p : List Byte}
    (hshape : shapeOk s.cfg k p.length = true) :
    ∃ d, exec (frameInstr k (legalFields s.cfg k p)) s =
        .next { s with dec := d, decOut := s.decOut ++ [build s.cfg k p] } ∧ d.state = .awaitHeader := by
  have hp := legalPayload_of_shapeOk hcfg hshape
  rw [exec_frameInstr, frameBytes_legalFields hp]
  exact execDec_of_endsWith (endsWith_frameOf hcfg hp hs)

/-- Settles O32: the rows are a valid Print, whose payload and event are known. -/
theorem printFrameGivesItsRows : Obligations.PrintFrameGivesItsRows := by
  intro s rows hcfg hs hne hrows hmax
  have hv : encValid s.cfg (.print rows) = true := encValid_print_iff.mpr ⟨hne, hrows, hmax⟩
  have h := exec_legalFrame hcfg hs (legalPayload_of_encValid hcfg hv).2
  rwa [build_commandPayload hcfg hv] at h

/-- Settles O33: the two payload bytes are joined low byte first. -/
theorem feedFrameGivesItsLines : Obligations.FeedFrameGivesItsLines := by
  intro s lo hi hcfg hs
  obtain ⟨d, h, hd⟩ := exec_legalFrame hcfg hs (k := .feed) (p := [lo, hi]) rfl
  exact ⟨d, joinLE lo hi, h, hd, joinLE_toNat lo hi⟩

/-- Settles O34: the one payload byte is the level. -/
theorem setHeatFrameGivesItsLevel : Obligations.SetHeatFrameGivesItsLevel :=
  fun _ level hcfg hs => exec_legalFrame hcfg hs (k := .setHeat) (p := [level]) rfl

/-- Settles O35: the empty payload is legal for both kinds, and a frame touches DEC and DEC_OUT alone. -/
theorem queryStatusAndResetFrames : Obligations.QueryStatusAndResetFrames :=
  fun _ hcfg hs =>
    ⟨exec_legalFrame hcfg hs (k := .queryStatus) (p := []) rfl, exec_legalFrame hcfg hs (k := .reset) (p := []) rfl⟩

/-- The report of a status byte, its bits read off its value (R88). -/
theorem statusOf_eq_of_toNat (b : Byte) :
    statusOf b = { paperPresent := decide (b.toNat % 2 = 0), overTemperature := decide (b.toNat / 2 % 2 = 1),
                   lowBattery := decide (b.toNat / 4 % 2 = 1), busy := decide (b.toNat / 8 % 2 = 1) } := by
  have hbit : ∀ i, b.getLsbD i = decide (b.toNat / 2 ^ i % 2 = 1) := fun i =>
    Bool.eq_iff_iff.mpr ((getLsbD_eq_true_iff b i).trans decide_eq_true_iff.symm)
  have hpaper : (!decide (b.toNat % 2 = 1)) = decide (b.toNat % 2 = 0) := by
    rw [← decide_not, decide_eq_decide]
    omega
  simp only [statusOf, hbit, Nat.reducePow, Nat.div_one, hpaper]

/-- Settles O36: the report is `statusOf` the payload byte. -/
theorem statusReportFrameGivesItsReport : Obligations.StatusReportFrameGivesItsReport := by
  intro s b hcfg hs
  rw [← statusOf_eq_of_toNat]
  exact exec_legalFrame hcfg hs (k := .statusReport) (p := [b]) rfl

/-! ### Status frames -/

/-- A status frame ends in the report of its byte (R127). -/
theorem endsWith_statusFrame {cfg : Cfg} (hcfg : cfgValid cfg) (b : Byte) {d : Dec} (hs : d.state = .awaitHeader) :
    endsWith cfg d (statusFrame cfg b) (.status (statusOf b)) :=
  endsWith_frameOf hcfg (legalPayload_of_shapeOk hcfg (k := .statusReport) (p := [b]) rfl) hs

/-- Settles O60: a status frame is `frameOf` one byte, and the reply of a report is the status frame of its status byte. -/
theorem statusFrameDecodesToItsReport : Obligations.StatusFrameDecodesToItsReport := by
  intro s hcfg hs
  refine ⟨fun b => ?_, fun r => ?_, fun b hb => ?_⟩
  · have hends := endsWith_statusFrame hcfg b hs
    obtain ⟨e, hrun, hstate⟩ := execDec_of_endsWith hends
    have hbytes : statusFrame s.cfg b = [s.cfg.opcStatusReport, 0x01, 0x00, b,
        ck s.cfg [s.cfg.opcStatusReport, 0x01, 0x00, b], s.cfg.term0, s.cfg.term1] := by
      simp [statusFrame, frameOf, opcodeOf]
    exact ⟨hbytes, ⟨_, hrun, hstate, rfl⟩, fun n hn => take_silent_of_endsWith hends hn⟩
  · obtain ⟨e, hrun, hstate⟩ := execDec_of_endsWith (endsWith_statusFrame hcfg (statusByte r) hs)
    rw [statusOf_statusByte] at hrun
    exact ⟨⟨statusByte r, rfl, statusByte_reserved r⟩, _, hrun, rfl, hstate⟩
  · rw [replyFrame, statusByte_statusOf hb]

end Sys2Proof.Machine
end

section
/-! A conversion over a readable buffer: where its pixels lie, its rows, its end, its restart (42_rasterizer.md rules R200 to R211), and what an unreadable pixel does (20_memory.md rule R68). -/

namespace Sys2Proof.Machine

/-! ### The source pixel of a dot -/

theorem toNat_pos_of_ne_zero {w : Nat} {v : BitVec w} (h : v ≠ 0) : 0 < v.toNat :=
  Nat.pos_of_ne_zero fun h0 => h (BitVec.eq_of_toNat_eq h0)

/-- An image as wide as the device keeps its height (R201). -/
theorem outHeight_self {width height : Nat} (hw : 0 < width) (hh : 0 < height) : outHeight width height width = height := by
  rw [outHeight, Nat.mul_div_cancel _ hw]
  exact Nat.max_eq_right hh

/-- Scaling down an index below `n` from `n` places to `m` gives one below `m`. -/
theorem mul_div_lt_of_lt {x m n : Nat} (hx : x < n) (hm : 0 < m) : x * m / n < m :=
  Nat.div_lt_of_lt_mul (Nat.mul_lt_mul_of_pos_right hx hm)

section
variable {r : Rast} (hok : rastOk r) (hactive : r.state = .active)
include hok hactive

theorem srcCol_lt_width {x : Nat} (hx : x < r.W.toNat) : srcCol r x < r.img.width.toNat := by
  obtain ⟨hwidth, -, -, -⟩ := hok.2 hactive
  exact mul_div_lt_of_lt hx (toNat_pos_of_ne_zero hwidth)

theorem srcRow_lt_height {y : Nat} (hy : y < r.H.toNat) : srcRow r y < r.img.height.toNat := by
  obtain ⟨-, hheight, -, -⟩ := hok.2 hactive
  exact mul_div_lt_of_lt hy (toNat_pos_of_ne_zero hheight)

/-- With no resampling the output is as high as the image. -/
theorem H_eq_height_of_width_eq (hw : r.img.width = r.W) : r.H = r.img.height := by
  obtain ⟨hwidth, hheight, -, hH⟩ := hok.2 hactive
  refine BitVec.eq_of_toNat_eq ?_
  rw [hH, ← hw, outHeight_self (toNat_pos_of_ne_zero hwidth) (toNat_pos_of_ne_zero hheight)]

theorem srcCol_eq_self (hw : r.img.width = r.W) (x : Nat) : srcCol r x = x := by
  obtain ⟨hwidth, -, -, -⟩ := hok.2 hactive
  rw [srcCol, ← hw, Nat.mul_div_cancel _ (toNat_pos_of_ne_zero hwidth)]

theorem srcRow_eq_self (hw : r.img.width = r.W) (y : Nat) : srcRow r y = y := by
  obtain ⟨-, hheight, -, -⟩ := hok.2 hactive
  rw [srcRow, H_eq_height_of_width_eq hok hactive hw, Nat.mul_div_cancel _ (toNat_pos_of_ne_zero hheight)]

end

/-- While rows are left, RAST.y is below RAST.H (R45). -/
theorem y_lt_H_of_ne {r : Rast} (hok : rastOk r) (hy : r.y ≠ r.H) : r.y.toNat < r.H.toNat :=
  Nat.lt_of_le_of_ne hok.1 fun h => hy (BitVec.eq_of_toNat_eq h)

/-- Settles O47: both maps scale an index down to the image's own range. -/
theorem sourcePixelLiesInTheImage : Obligations.SourcePixelLiesInTheImage :=
  fun _ hok hactive =>
    ⟨fun _ => srcCol_lt_width hok hactive, fun _ => srcRow_lt_height hok hactive, fun hw =>
      ⟨H_eq_height_of_width_eq hok hactive hw, srcCol_eq_self hok hactive hw, srcRow_eq_self hok hactive hw⟩⟩

/-- The channels of a pixel of the image lie in the buffer (R60, R61). -/
theorem pixAddr_lt {img : ImageDesc} {sx sy c : Nat} (hx : sx < img.width.toNat) (hy : sy < img.height.toNat)
    (hc : c < PixelFormat.channels img.format) : pixAddr img sx sy c < img.base + imageBytes img := by
  have hpixel : sy * img.width.toNat + sx + 1 ≤ img.width.toNat * img.height.toNat :=
    calc sy * img.width.toNat + sx + 1 ≤ (sy + 1) * img.width.toNat := by rw [Nat.succ_mul]; omega
      _ ≤ img.height.toNat * img.width.toNat := Nat.mul_le_mul_right _ hy
      _ = img.width.toNat * img.height.toNat := Nat.mul_comm _ _
  have hbyte : (sy * img.width.toNat + sx) * PixelFormat.channels img.format + PixelFormat.channels img.format
      ≤ imageBytes img := by
    rw [← Nat.succ_mul]
    exact Nat.mul_le_mul_right _ hpixel
  unfold pixAddr
  omega

theorem base_le_pixAddr (img : ImageDesc) (sx sy c : Nat) : img.base ≤ pixAddr img sx sy c := by
  unfold pixAddr
  omega

/-! ### The rows of a readable buffer -/

/-- Row y as R203 to R208 make it of the bytes in memory. -/
def rowFrom (m : Memory) (r : Rast) (y : Nat) : BitRow :=
  packRow r.W.toNat ((List.range r.W.toNat).map fun x =>
    dot (luminance r.img.format ((List.range (PixelFormat.channels r.img.format)).map fun c =>
      (m.read? (pixAddr r.img (srcCol r x) (srcRow r y) c)).getD 0)) (threshold r.dither x y))

theorem rowFrom_length (m : Memory) (r : Rast) (y : Nat) : (rowFrom m r y).length = ceilDiv r.W.toNat 8 := packRow_length _ _

/-- A readable buffer gives its row, whatever memory holds outside the buffer. -/
theorem rastRow_of_imageProvided {m m' : Memory} {r : Rast} (hok : rastOk r) (hactive : r.state = .active) {y : Nat}
    (hy : y < r.H.toNat) (himg : imageProvided m r.img)
    (hsame : ∀ a, r.img.base ≤ a → a < r.img.base + imageBytes r.img → m.read? a = m'.read? a) :
    rastRow m' r y = .ok (rowFrom m r y) := by
  refine rastRow_of_pixels fun x c hx hc => ?_
  have hlow := base_le_pixAddr r.img (srcCol r x) (srcRow r y) c
  have hhigh := pixAddr_lt (srcCol_lt_width hok hactive hx) (srcRow_lt_height hok hactive hy) hc
  obtain ⟨b, hb⟩ := Option.isSome_iff_exists.mp (himg _ hlow hhigh)
  rw [← hsame _ hlow hhigh, hb]
  rfl

/-- RAST_NEXT with a row left, over a readable buffer. -/
theorem exec_rastNext_rowFrom {m : Memory} {s : State} (hok : rastOk s.rast) (hactive : s.rast.state = .active)
    (hy : s.rast.y ≠ s.rast.H) (himg : imageProvided m s.rast.img)
    (hsame : ∀ a, s.rast.img.base ≤ a → a < s.rast.img.base + imageBytes s.rast.img → m.read? a = s.mem.read? a) :
    exec .rastNext s = .next { s with
      rast := { s.rast with y := s.rast.y + 1 }, rastOut := s.rastOut ++ [.row (rowFrom m s.rast s.rast.y.toNat)] } :=
  exec_rastNext_row hactive hy
    (rastRow_of_imageProvided hok hactive (y_lt_H_of_ne hok hy) himg hsame)

/-- Settles O50: both states meet the same row, made of the first one's bytes. -/
theorem rowDependsOnlyOnTheImage : Obligations.RowDependsOnlyOnTheImage := by
  intro s1 s2 hrast hok hactive himg hsame
  by_cases hy : s1.rast.y = s1.rast.H
  · refine ⟨s1.rast, .endOfRows, exec_rastNext_end hactive hy, ?_⟩
    rw [hrast] at hactive hy ⊢
    exact exec_rastNext_end hactive hy
  · refine ⟨_, _, exec_rastNext_rowFrom hok hactive hy himg fun _ _ _ => rfl, ?_⟩
    rw [hrast] at hok hactive hy himg hsame ⊢
    exact exec_rastNext_rowFrom hok hactive hy himg hsame

/-! ### Runs of RAST_NEXT -/

/-- An operation that answers a next state, and the ones after it. -/
theorem execAll_cons {i : Instr} {s t : State} (h : exec i s = .next t) (is : List Instr) :
    execAll (i :: is) s = execAll is t := by
  simp only [execAll, h]

/-- A row taken keeps RAST.y at most RAST.H (R45, R202). -/
theorem rastOk_next_row {r : Rast} (hok : rastOk r) (hy : r.y ≠ r.H) :
    rastOk { r with y := r.y + 1 } ∧ (r.y + 1).toNat = r.y.toNat + 1 := by
  have hlt := y_lt_H_of_ne hok hy
  have hsucc : (r.y + 1).toNat = r.y.toNat + 1 := by
    have := r.H.isLt
    rw [BitVec.toNat_add]
    exact Nat.mod_eq_of_lt (by simpa using Nat.lt_of_le_of_lt hlt this)
  exact ⟨⟨hsucc.trans_le hlt, hok.2⟩, hsucc⟩

/-- `n` rows of a conversion that has them left. -/
theorem execAll_rastNext_rows (n : Nat) {s : State} (hok : rastOk s.rast) (hactive : s.rast.state = .active)
    (himg : imageProvided s.mem s.rast.img) (hn : s.rast.y.toNat + n ≤ s.rast.H.toNat) :
    execAll (List.replicate n .rastNext) s = .next { s with
      rast := { s.rast with y := BitVec.ofNat 32 (s.rast.y.toNat + n) },
      rastOut := s.rastOut ++ ((List.range' s.rast.y.toNat n).map (rowFrom s.mem s.rast)).map .row } := by
  induction n generalizing s with
  | zero => simp [execAll]
  | succ n ih =>
    have hy : s.rast.y ≠ s.rast.H := fun h => by rw [h] at hn; omega
    obtain ⟨hok', hsucc⟩ := rastOk_next_row hok hy
    rw [List.replicate_succ, execAll_cons (exec_rastNext_rowFrom hok hactive hy himg fun _ _ _ => rfl)]
    have hrest := @ih { s with
      rast := { s.rast with y := s.rast.y + 1 },
      rastOut := s.rastOut ++ [.row (rowFrom s.mem s.rast s.rast.y.toNat)] } hok' hactive himg
      (by simp only [hsucc]; omega)
    simp only [hsucc] at hrest
    simp only [hrest, List.range'_succ, List.map_cons, List.append_assoc, List.singleton_append,
      Nat.add_right_comm _ 1 n, Nat.add_assoc]
    rfl

/-- The registers of a conversion that has just been bound (R200, R201). -/
def boundRast (img : ImageDesc) (w : Word) (dither : Bool) : Rast where
  state  := .active
  img    := img
  W      := w
  H      := BitVec.ofNat 32 (outHeight img.width.toNat img.height.toNat w.toNat)
  dither := dither
  y      := 0

theorem exec_rastStart_boundRast {img : ImageDesc} {w : Word} (h : bindsImage img w) (dither : Bool) (s : State) :
    exec (.rastStart img w dither) s = .next (s.withRast (boundRast img w dither)) :=
  exec_rastStart_of_bindsImage h dither s

theorem boundRast_H_toNat {img : ImageDesc} {w : Word} (h : bindsImage img w) (dither : Bool) :
    (boundRast img w dither).H.toNat = outHeight img.width.toNat img.height.toNat w.toNat := by
  obtain ⟨-, -, -, hH⟩ := h
  rw [boundRast, BitVec.toNat_ofNat, Nat.mod_eq_of_lt hH]

theorem rastOk_boundRast {img : ImageDesc} {w : Word} (h : bindsImage img w) (dither : Bool) :
    rastOk (boundRast img w dither) :=
  ⟨Nat.zero_le _, fun _ => ⟨h.1, h.2.1, h.2.2.1, boundRast_H_toNat h dither⟩⟩

/-- Settles O48: all H rows are left after the start, and after them RAST.y is RAST.H. -/
theorem conversionEmitsItsRowsThenEnd : Obligations.ConversionEmitsItsRowsThenEnd := by
  rintro s img w dither H hwidth hheight hw hHeq hH himg
  obtain rfl : H = outHeight img.width.toNat img.height.toNat w.toNat := hHeq
  have hbinds : bindsImage img w := ⟨hwidth, hheight, hw, hH⟩
  have hrun := execAll_rastNext_rows (outHeight img.width.toNat img.height.toNat w.toNat)
    (s := s.withRast (boundRast img w dither)) (rastOk_boundRast hbinds dither) rfl himg
    (Nat.le_of_eq ((Nat.zero_add _).trans (boundRast_H_toNat hbinds dither).symm))
  rw [← execAll_cons (exec_rastStart_boundRast hbinds dither s) _] at hrun
  refine ⟨_, _, hrun, rfl, ?_, ?_, ?_⟩
  · rw [List.length_map, List.length_range']
  · intro row hrow
    obtain ⟨y, -, rfl⟩ := List.mem_map.mp hrow
    exact rowFrom_length _ _ _
  · refine exec_rastNext_end rfl (congrArg (BitVec.ofNat 32) (Nat.zero_add _))

/-- RAST_NEXT over a readable buffer gives one event, which the registers and memory alone determine. -/
theorem exec_rastNext_of_readable {m : Memory} {r : Rast} (hok : rastOk r) (hactive : r.state = .active)
    (himg : imageProvided m r.img) :
    ∃ ev y, rastOk { r with y := y } ∧ ∀ s : State, s.mem = m → s.rast = r →
      exec .rastNext s = .next { s with rast := { r with y := y }, rastOut := s.rastOut ++ [ev] } := by
  by_cases hy : r.y = r.H
  · refine ⟨.endOfRows, r.y, hok, ?_⟩
    rintro s rfl rfl
    exact exec_rastNext_end hactive hy
  · refine ⟨.row (rowFrom m r r.y.toNat), r.y + 1, (rastOk_next_row hok hy).1, ?_⟩
    rintro s rfl rfl
    exact exec_rastNext_rowFrom hok hactive hy himg fun _ _ _ => rfl

/-- So do `n` of them, rows or End, and only RAST.y has changed. -/
theorem execAll_rastNext_of_readable {m : Memory} (n : Nat) {r : Rast} (hok : rastOk r) (hactive : r.state = .active)
    (himg : imageProvided m r.img) :
    ∃ (evs : List RastEvent) (y : Word), evs.length = n ∧ ∀ s : State, s.mem = m → s.rast = r →
      execAll (List.replicate n .rastNext) s =
        .next { s with rast := { r with y := y }, rastOut := s.rastOut ++ evs } := by
  induction n generalizing r with
  | zero =>
    refine ⟨[], r.y, rfl, ?_⟩
    rintro s rfl rfl
    simp [execAll]
  | succ n ih =>
    obtain ⟨ev, y, hok', hnext⟩ := exec_rastNext_of_readable hok hactive himg
    obtain ⟨evs, z, hlen, hrest⟩ := ih hok' hactive himg
    refine ⟨ev :: evs, z, by rw [List.length_cons, hlen], fun s hm hr => ?_⟩
    rw [List.replicate_succ, execAll_cons (hnext s hm hr),
      hrest { s with rast := { r with y := y }, rastOut := s.rastOut ++ [ev] } hm rfl, List.append_assoc]
    rfl

/-- Settles O49: RAST_RESTART brings back the registers of row 0, and the same registers over the same memory give the same events. -/
theorem restartRepeatsTheRows : Obligations.RestartRepeatsTheRows := by
  intro s n hok hactive hy himg
  obtain ⟨evs, y, hlen, hrun⟩ := execAll_rastNext_of_readable n hok hactive himg
  have hback : ({ s.rast with y := 0 } : Rast) = s.rast := by rw [← hy]
  have hagain := hrun { s with rast := { s.rast with y := 0 }, rastOut := s.rastOut ++ evs } rfl hback
  have hrestart := (rastRestartRewinds { s with rast := { s.rast with y := y }, rastOut := s.rastOut ++ evs }).1 hactive
  rw [← execAll_cons hrestart] at hagain
  exact ⟨evs, _, _, hlen, hrun s rfl rfl, rfl, hagain, rfl⟩

/-! ### An unreadable pixel -/

/-- A row is stuck exactly where one of its dots is. -/
theorem rastRow_error {m : Memory} {r : Rast} {y : Nat} {e : Fault} (h : rastRow m r y = .error e) :
    ∃ x, x < r.W.toNat ∧ dotAt m r y x = .error e := by
  unfold rastRow at h
  split at h
  · rename_i e' he
    cases h
    obtain ⟨x, -, hx, hdot⟩ := collect_error he
    exact ⟨x, by omega, hdot⟩
  · cases h

theorem rastRow_stops {m : Memory} {r : Rast} {y x : Nat} {e : Fault} (hx : x < r.W.toNat) (h : dotAt m r y x = .error e) :
    ∃ e', rastRow m r y = .error e' := by
  obtain ⟨e', he'⟩ := collect_stops (Nat.zero_le x) (by omega : x < 0 + r.W.toNat) h
  exact ⟨e', by simp only [rastRow, he']⟩

theorem exec_rastNext_fault {s : State} {e : Fault} (hactive : s.rast.state = .active) (hy : s.rast.y ≠ s.rast.H)
    (hrow : rastRow s.mem s.rast s.rast.y.toNat = .error e) : exec .rastNext s = .fault e := by
  simp only [execRastNext_eq, rastNextResult, hactive, if_neg hy, hrow]

/-- Settles O57: the missing byte stops its dot and so the row, and the fault of a row is a missing byte of one of its dots. -/
theorem rastNextStopsOnAnUnreadablePixel : Obligations.RastNextStopsOnAnUnreadablePixel := by
  rintro s C addr hactive hy hC haddr ⟨x, c, hx, hc, hnone⟩
  obtain rfl : C = PixelFormat.channels s.rast.img.format := hC
  have haddr' : ∀ x c, addr x c = pixAddr s.rast.img (srcCol s.rast x) (srcRow s.rast s.rast.y.toNat) c := haddr
  rw [haddr'] at hnone
  obtain ⟨e, hdot⟩ := dotAt_stops hc hnone
  obtain ⟨e', hrow⟩ := rastRow_stops hx hdot
  obtain ⟨x', hx', hdot'⟩ := rastRow_error hrow
  obtain ⟨c', hc', hnone', rfl⟩ := dotAt_error hdot'
  refine ⟨x', c', hx', hc', ?_, ?_⟩
  · rw [haddr']; exact hnone'
  · rw [haddr']; exact exec_rastNext_fault hactive hy hrow

/-! ### Thresholds -/

/-- Every threshold of R205 lies above 0 and at most at 255. -/
theorem threshold_bounds (dither : Bool) (x y : Nat) : 0 < threshold dither x y ∧ threshold dither x y ≤ 255 := by
  have hbayer : ∀ r c : Fin 4, bayer r c ≤ 15 := by decide
  have hcell := hbayer ⟨y % 4, Nat.mod_lt y (by decide)⟩ ⟨x % 4, Nat.mod_lt x (by decide)⟩
  cases dither with
  | false => simp [threshold]
  | true =>
    simp only [threshold, if_true] at hcell ⊢
    omega

/-- Settles O51: `dot` is the comparison, and 0 and 255 lie outside the thresholds' range. -/
theorem whiteNeverFiresBlackAlwaysFires : Obligations.WhiteNeverFiresBlackAlwaysFires := by
  refine ⟨fun lum t => decide_eq_true_iff, fun dither x y => ?_⟩
  obtain ⟨hpos, hle⟩ := threshold_bounds dither x y
  exact ⟨decide_eq_false (Nat.not_lt.mpr hle), decide_eq_true hpos⟩

end Sys2Proof.Machine
end

section
/-! What each unit's instructions leave alone, emit and complete, and the order of units (20_memory.md rule R71, 60_exceptions.md rules R260, R272, R273). -/

namespace Sys2Proof.Machine

/-! ### The frame of a unit -/

/-- From `s` to `t` no registers have changed but those of unit `u`, nor the host's memory and inputs; CFG_LOAD is the one operation that writes the registers of two units (R250). -/
structure ChangesOnly (u : BlockUnit) (s t : State) : Prop where
  mem    : t.mem = s.mem
  inputs : t.inputs = s.inputs
  cfg    : u ≠ .cfg → t.cfg = s.cfg
  dec    : u ≠ .cfg → u ≠ .dec → t.dec = s.dec
  rast   : u ≠ .rast → t.rast = s.rast

/-- Each instruction changes only what is its unit's. -/
theorem changesOnly_of_exec {i : Instr} {s t : State} (h : exec i s = .next t) : ChangesOnly (unitOf i) s t := by
  cases hu : unitOf i with
  | cfg =>
    obtain ⟨f, -, hexec⟩ := exec_cfg_unit hu
    rw [hexec] at h
    cases h
    constructor <;> simp
  | enc =>
    obtain ⟨f, g, -, -, hexec⟩ := exec_enc_unit hu
    rw [hexec] at h
    cases h
    constructor <;> simp
  | dec =>
    obtain ⟨f, hexec⟩ := exec_dec_unit hu
    rw [hexec] at h
    cases h
    constructor <;> simp
  | rast =>
    obtain ⟨f, -, hexec⟩ := exec_rast_unit hu
    rw [hexec] at h
    cases hf : f s.mem s.rast with
    | error e => rw [hf] at h; cases h
    | ok q =>
      rw [hf] at h
      cases h
      constructor <;> simp

/-- Settles O54: memory and the pending inputs are no unit's to change. -/
theorem instructionsLeaveHostMemoryAlone : Obligations.InstructionsLeaveHostMemoryAlone := by
  intro s t i h
  have hframe := changesOnly_of_exec h
  exact ⟨fun a => by rw [hframe.mem], hframe.inputs⟩

/-- Settles O18: a valid command gives its frame, an invalid one its error, and CFG alone decides which. -/
theorem encReadsOnlyItsOperandAndCfg : Obligations.EncReadsOnlyItsOperandAndCfg := by
  intro cmd s1 s2 hcfg
  by_cases hv : encValid s1.cfg cmd = true
  · refine ⟨frameOf s1.cfg (commandKind cmd) (commandPayload cmd), [], ?_, ?_, .inl ⟨rfl, ?_⟩⟩
    · rw [exec_enc_valid hv, List.append_nil]
      rfl
    · rw [hcfg] at hv ⊢
      rw [exec_enc_valid hv, List.append_nil]
      rfl
    · rw [frameOf_length]
      omega
  · refine ⟨[], [.encodeInvalid (commandKind cmd)], ?_, ?_, .inr ⟨rfl, rfl⟩⟩
    · rw [exec_enc_invalid hv, List.append_nil]
      rfl
    · rw [hcfg] at hv
      rw [exec_enc_invalid hv, List.append_nil]
      rfl

/-! ### At most one error, on the unit's own port -/

/-- The two operations of DEC give at most one event (R160, R252). -/
theorem exec_dec_operation {i : Instr} (h : i = .decClear ∨ ∃ b, i = .decByte b) (s : State) :
    ∃ (d : Dec) (evs : List DecEvent), evs.length ≤ 1 ∧ exec i s = .next ((s.withDec d).emitDec evs) := by
  obtain rfl | ⟨b, rfl⟩ := h
  · exact ⟨{ s.dec with state := .awaitHeader }, [], by simp, by
      rw [decClearOnlyMovesTheDecoderState s]; simp [State.withDec, State.emitDec]⟩
  · exact ⟨_, _, Option.length_toList_le, rfl⟩

/-- Settles O53: unit by unit, from what the unit's operations append. -/
theorem anErrorIsTheOnlyOutput : Obligations.AnErrorIsTheOnlyOutput := by
  intro s t i hop h
  cases hu : unitOf i with
  | cfg =>
    obtain ⟨f, hlen, hexec⟩ := exec_cfg_unit hu
    rw [hexec] at h
    cases h
    exact ⟨[], [], [], (f s.cfg s.dec).2.2, [], by simp [hlen]⟩
  | enc =>
    obtain ⟨f, g, hlen, hexcl, hexec⟩ := exec_enc_unit hu
    rw [hexec] at h
    cases h
    exact ⟨f s.cfg, [], [], [], g s.cfg, by simpa [hlen] using hexcl s.cfg⟩
  | dec =>
    have hdec : i = .decClear ∨ ∃ b, i = .decByte b := by
      obtain ⟨r, rfl⟩ | rfl | ⟨c, rfl⟩ | hb | ⟨img, w, d, rfl⟩ | rfl | rfl := hop
      · cases hu
      · exact .inl rfl
      · cases hu
      · exact .inr hb
      · cases hu
      · cases hu
      · cases hu
    obtain ⟨d, evs, hlen, hexec⟩ := exec_dec_operation hdec s
    rw [hexec] at h
    cases h
    exact ⟨[], evs, [], [], [], by simpa using hlen⟩
  | rast =>
    obtain ⟨f, hlen, hexec⟩ := exec_rast_unit hu
    rw [hexec] at h
    cases hf : f s.mem s.rast with
    | error e => rw [hf] at h; cases h
    | ok q =>
      rw [hf] at h
      cases h
      exact ⟨[], [], q.2, [], [], by simpa using hlen _ _ _ hf⟩

/-! ### Two units in either order -/

/-- DEC and ENC: each reads CFG, which neither writes, and they write different fields. -/
theorem execAll_dec_enc {i j : Instr} (hi : unitOf i = .dec) (hj : unitOf j = .enc) (s : State) :
    execAll [i, j] s = execAll [j, i] s := by
  obtain ⟨f, hf⟩ := exec_dec_unit hi
  obtain ⟨g, e, -, -, hg⟩ := exec_enc_unit hj
  simp [execAll, hf, hg, State.withDec, State.emitDec]

/-- RAST reads and writes its own registers, its port and the host's memory, of which the other units touch none. -/
theorem execAll_rast_of_frame {i j : Instr} {s : State} {g : State → State} (hi : unitOf i = .rast)
    (hj : ∀ u, exec j u = .next (g u)) (hmem : (g s).mem = s.mem) (hrast : (g s).rast = s.rast)
    (hcomm : ∀ r evs, g { s with rast := r, rastOut := s.rastOut ++ evs } =
      { g s with rast := r, rastOut := (g s).rastOut ++ evs }) :
    execAll [i, j] s = execAll [j, i] s := by
  obtain ⟨f, -, hf⟩ := exec_rast_unit hi
  simp only [execAll, hj, hf, hmem, hrast]
  cases f s.mem s.rast with
  | error e => rfl
  | ok q => simp only [hcomm, hmem]

theorem execAll_rast_other {i j : Instr} (hi : unitOf i = .rast) (hj : unitOf j ≠ .rast) (s : State) :
    execAll [i, j] s = execAll [j, i] s := by
  cases hu : unitOf j with
  | cfg =>
    obtain ⟨f, -, hexec⟩ := exec_cfg_unit hu
    exact execAll_rast_of_frame hi hexec rfl rfl fun _ _ => rfl
  | enc =>
    obtain ⟨f, g, -, -, hexec⟩ := exec_enc_unit hu
    exact execAll_rast_of_frame hi hexec rfl rfl fun _ _ => rfl
  | dec =>
    obtain ⟨f, hexec⟩ := exec_dec_unit hu
    exact execAll_rast_of_frame hi hexec rfl rfl fun _ _ => rfl
  | rast => exact absurd hu hj

/-- Settles O52: without CFG_LOAD the pairs are DEC with ENC and RAST with any other, and CFG_LOAD meets RAST alone. -/
theorem unitsCommute : Obligations.UnitsCommute := by
  intro s i j hne hicfg hjcfg
  cases hi : unitOf i with
  | rast => exact execAll_rast_other hi (by rw [← hi]; exact hne.symm) s
  | cfg => exact (execAll_rast_other (hicfg hi) (by rw [hi]; decide) s).symm
  | enc =>
    cases hj : unitOf j with
    | dec => exact (execAll_dec_enc hj hi s).symm
    | rast => exact (execAll_rast_other hj (by rw [hi]; decide) s).symm
    | enc => exact absurd (hi.trans hj.symm) hne
    | cfg => rw [hi] at hjcfg; cases hjcfg hj
  | dec =>
    cases hj : unitOf j with
    | enc => exact execAll_dec_enc hi hj s
    | rast => exact (execAll_rast_other hj (by rw [hi]; decide) s).symm
    | dec => exact absurd (hi.trans hj.symm) hne
    | cfg => rw [hi] at hjcfg; cases hjcfg hj

/-! ### Completion -/

/-- Every instruction but RAST_NEXT completes. -/
theorem exec_completes_of_ne_rastNext {i : Instr} (h : i ≠ .rastNext) (s : State) : ∃ t, exec i s = .next t := by
  cases hu : unitOf i with
  | cfg =>
    obtain ⟨f, -, hexec⟩ := exec_cfg_unit hu
    exact ⟨_, hexec s⟩
  | enc =>
    obtain ⟨f, g, -, -, hexec⟩ := exec_enc_unit hu
    exact ⟨_, hexec s⟩
  | dec =>
    obtain ⟨f, hexec⟩ := exec_dec_unit hu
    exact ⟨_, hexec s⟩
  | rast =>
    cases i with
    | rastStart img w dither =>
      by_cases hbinds : bindsImage img w
      · exact ⟨_, exec_rastStart_boundRast hbinds dither s⟩
      · exact ⟨_, exec_rastStart_of_not_bindsImage hbinds dither s⟩
    | rastRestart =>
      obtain ⟨hactive, hidle⟩ := rastRestartRewinds s
      cases hs : s.rast.state with
      | idle => exact ⟨_, hidle hs⟩
      | active => exact ⟨_, hactive hs⟩
    | rastNext => exact absurd rfl h
    | _ => cases hu

/-- RAST_NEXT completes, or a row is left and an offset it reads holds no byte. -/
theorem exec_rastNext_cases (s : State) :
    (∃ t, exec .rastNext s = .next t) ∨
    (s.rast.state = .active ∧ s.rast.y ≠ s.rast.H ∧
      ∃ a, s.mem.read? a = none ∧ exec .rastNext s = .fault (.pixelOutsideBuffer a)) := by
  cases hs : s.rast.state with
  | idle => exact .inl ⟨_, exec_rastNext_idle hs⟩
  | active =>
    by_cases hy : s.rast.y = s.rast.H
    · exact .inl ⟨_, exec_rastNext_end hs hy⟩
    · cases hrow : rastRow s.mem s.rast s.rast.y.toNat with
      | ok row => exact .inl ⟨_, exec_rastNext_row hs hy hrow⟩
      | error e =>
        obtain ⟨x, -, hdot⟩ := rastRow_error hrow
        obtain ⟨c, -, hnone, rfl⟩ := dotAt_error hdot
        exact .inr ⟨rfl, hy, _, hnone, exec_rastNext_fault hs hy hrow⟩

/-- Settles O56: RAST_NEXT reads no byte when IDLE or exhausted, and else its row is there. -/
theorem operationsComplete : Obligations.OperationsComplete := by
  intro s i h
  by_cases hi : i = .rastNext
  case neg => exact exec_completes_of_ne_rastNext hi s
  subst hi
  cases hs : s.rast.state with
  | idle => exact ⟨_, exec_rastNext_idle hs⟩
  | active =>
    by_cases hy : s.rast.y = s.rast.H
    · exact ⟨_, exec_rastNext_end hs hy⟩
    · obtain ⟨hok, himg⟩ : rastOk s.rast ∧ imageProvided s.mem s.rast.img := by simpa [hs, hy] using h
      exact ⟨_, exec_rastNext_rowFrom hok hs hy himg fun _ _ _ => rfl⟩

/-- An instruction faults only as RAST_NEXT on an offset that holds no byte, and none refuses. -/
theorem exec_outcome (i : Instr) (s : State) :
    (∃ t, exec i s = .next t) ∨
    (i = .rastNext ∧ s.rast.state = .active ∧ s.rast.y ≠ s.rast.H ∧
      ∃ a, s.mem.read? a = none ∧ exec i s = .fault (.pixelOutsideBuffer a)) := by
  by_cases hi : i = .rastNext
  · subst hi
    simpa using exec_rastNext_cases s
  · exact .inl (exec_completes_of_ne_rastNext hi s)

end Sys2Proof.Machine
end

section
/-! One step: what the next input runs, where it stops, what it may change (20_memory.md rules R70, R71, 60_exceptions.md rule R278). -/

namespace Sys2Proof.Machine

/-! ### The step by its next input -/

theorem step_of_nil {s : State} (h : s.inputs = []) : step s = .next s := by
  simp only [step, h]

theorem step_of_op {s : State} {t : Transaction} {later : List Input} (h : s.inputs = .op t :: later) :
    step s = exec (fetchInstr s.cfg t) (s.withInputs (fetchRest s.cfg t later)) := by
  simp only [step, h]

/-- Settles O8: with nothing pending there is no move. -/
theorem stepWithNothingPendingIsIdle : Obligations.StepWithNothingPendingIsIdle :=
  fun _ => step_of_nil

/-- Settles O6: `fetchInstr` and `fetchRest` are the two parts of what the transaction decodes to. -/
theorem stepRunsTheDecodedInstruction : Obligations.StepRunsTheDecodedInstruction := by
  intro s t later h
  rw [step_of_op h]
  unfold fetchInstr fetchRest State.withInputs
  cases (decode s.cfg t).2 <;> rfl

/-- A write outside the bound buffer is the host's own affair (R60, R70). -/
theorem step_hostWrite_free {s : State} {a : Nat} {b : Byte} {later : List Input}
    (h : s.inputs = .hostWrite a b :: later) (hfree : ¬ inBoundBuffer s.rast a = true) :
    step s = .next ((s.withInputs later).withMem (s.mem.write a b)) := by
  simp only [step, h]
  exact if_neg hfree

theorem step_hostWrite_bound {s : State} {a : Nat} {b : Byte} {later : List Input}
    (h : s.inputs = .hostWrite a b :: later) (hbound : inBoundBuffer s.rast a = true) :
    step s = .fault (.boundBufferWritten a) := by
  simp only [step, h]
  exact if_pos hbound

/-- Settles O16: the two cases are `inBoundBuffer` and its complement. -/
theorem hostWriteMovesOneByte : Obligations.HostWriteMovesOneByte := by
  intro s a b later h
  rw [← inBoundBuffer_iff]
  refine ⟨step_hostWrite_bound h, fun hfree => ⟨s.mem.write a b, step_hostWrite_free h hfree, ?_, ?_⟩⟩
  · exact Memory.read?_write_same _ _ _
  · exact fun c hc => Memory.read?_write_other _ b hc

/-! ### The unit that takes a transaction -/

/-- The unit whose port a transaction is on (R20). -/
def unitOfPort : Transaction → BlockUnit
  | .cfgIn _ => .cfg
  | .encCmd _ => .enc
  | .rx _ _ => .dec
  | .rxClear => .dec
  | .rastCtl _ => .rast

/-- RX bytes hold a whole frame in front, or their first byte is taken alone. -/
theorem decodeRx_cases (cfg : Cfg) (b : Byte) (bs : List Byte) :
    (∃ k f after, decodeRx cfg b bs = (frameInstr k f, after) ∧ b :: bs = frameBytes cfg k f ++ after) ∨
    decodeRx cfg b bs = (.decByte b, bs) := by
  unfold decodeRx
  cases h : decodeFrame cfg (b :: bs) with
  | error e => exact .inr rfl
  | ok r =>
    obtain ⟨k, f, hi, -, hbs⟩ := decodeFrame_ok (i := r.1) (after := r.2) h
    exact .inl ⟨k, f, r.2, by rw [← hi], hbs⟩

theorem unitOf_frameInstr (k : Kind) (f : FrameFields) : unitOf (frameInstr k f) = .dec := by
  cases k <;> rfl

/-- A transaction is run by the unit of its port. -/
theorem unitOf_fetchInstr (cfg : Cfg) (t : Transaction) : unitOf (fetchInstr cfg t) = unitOfPort t := by
  cases t with
  | cfgIn | encCmd | rxClear => rfl
  | rastCtl q => cases q <;> rfl
  | rx b bs =>
    change unitOf (decodeRx cfg b bs).1 = .dec
    obtain ⟨k, f, after, h, -⟩ | h := decodeRx_cases cfg b bs
    · rw [h]
      exact unitOf_frameInstr k f
    · rw [h]
      rfl

/-- The transactions of each port (R20). -/
theorem eq_cfgIn_of_unitOfPort {t : Transaction} (h : unitOfPort t = .cfg) : ∃ r, t = .cfgIn r := by
  cases t with
  | cfgIn r => exact ⟨r, rfl⟩
  | encCmd | rx | rxClear | rastCtl => cases h

theorem eq_rx_of_unitOfPort {t : Transaction} (h : unitOfPort t = .dec) : t = .rxClear ∨ ∃ b bs, t = .rx b bs := by
  cases t with
  | rxClear => exact .inl rfl
  | rx b bs => exact .inr ⟨b, bs, rfl⟩
  | cfgIn | encCmd | rastCtl => cases h

theorem eq_rastCtl_of_unitOfPort {t : Transaction} (h : unitOfPort t = .rast) : ∃ q, t = .rastCtl q := by
  cases t with
  | rastCtl q => exact ⟨q, rfl⟩
  | cfgIn | encCmd | rx | rxClear => cases h

/-- RAST_NEXT comes from its own request alone. -/
theorem eq_next_of_fetchInstr {cfg : Cfg} {t : Transaction} (h : fetchInstr cfg t = .rastNext) : t = .rastCtl .next := by
  obtain ⟨q, rfl⟩ := eq_rastCtl_of_unitOfPort ((unitOf_fetchInstr cfg t).symm.trans (congrArg unitOf h))
  cases q with
  | next => rfl
  | start | restart => cases h

/-- RAST_START comes from its own request alone. -/
theorem eq_start_of_fetchInstr {cfg : Cfg} {t : Transaction} {img : ImageDesc} {w : Word} {dither : Bool}
    (h : fetchInstr cfg t = .rastStart img w dither) : t = .rastCtl (.start img w dither) := by
  obtain ⟨q, rfl⟩ := eq_rastCtl_of_unitOfPort ((unitOf_fetchInstr cfg t).symm.trans (congrArg unitOf h))
  cases q with
  | start => cases h; rfl
  | next | restart => cases h

/-! ### Where a step stops -/

/-- A step answers a next state or is stuck in one of the two ways of R68 and R70. -/
theorem step_outcome (s : State) :
    (∃ t, step s = .next t) ∨
    (∃ later a, s.inputs = .op (.rastCtl .next) :: later ∧ s.rast.state = .active ∧ s.rast.y ≠ s.rast.H ∧
      s.mem.read? a = none ∧ step s = .fault (.pixelOutsideBuffer a)) ∨
    (∃ later a b, s.inputs = .hostWrite a b :: later ∧ inBoundBuffer s.rast a = true ∧
      step s = .fault (.boundBufferWritten a)) := by
  match h : s.inputs with
  | [] => exact .inl ⟨s, step_of_nil h⟩
  | .blockReset :: later => exact .inl ⟨_, step_of_blockReset h⟩
  | .hostWrite a b :: later =>
    by_cases hbound : inBoundBuffer s.rast a = true
    · exact .inr (.inr ⟨later, a, b, rfl, hbound, step_hostWrite_bound h hbound⟩)
    · exact .inl ⟨_, step_hostWrite_free h hbound⟩
  | .op t :: later =>
    rw [step_of_op h]
    obtain hnext | ⟨hi, hactive, hy, a, hnone, hfault⟩ :=
      exec_outcome (fetchInstr s.cfg t) (s.withInputs (fetchRest s.cfg t later))
    · exact .inl hnext
    · obtain rfl := eq_next_of_fetchInstr hi
      exact .inr (.inl ⟨later, a, rfl, hactive, hy, hnone, hfault⟩)

/-- Settles O14: `step_outcome`, of which the first case neither refuses nor faults. -/
theorem stepStopsOnlyWhereStuck : Obligations.StepStopsOnlyWhereStuck := by
  intro s
  obtain ⟨t, hstep⟩ | ⟨later, a, hin, hactive, hy, hnone, hstep⟩ | ⟨later, a, b, hin, hbound, hstep⟩ :=
    step_outcome s
  · simp [hstep]
  · rw [hstep]
    refine ⟨fun _ => nofun, ?_⟩
    rintro f ⟨⟩
    exact .inl ⟨later, a, hin, hactive, hy, hnone, rfl⟩
  · rw [hstep]
    refine ⟨fun _ => nofun, ?_⟩
    rintro f ⟨⟩
    obtain ⟨hactive, hlow, hhigh⟩ := inBoundBuffer_iff.mp hbound
    exact .inr ⟨later, a, b, hin, hactive, hlow, hhigh, rfl⟩

/-- A host write that is answered changes memory alone. -/
theorem next_of_step_hostWrite {s t : State} {a : Nat} {b : Byte} {later : List Input}
    (hin : s.inputs = .hostWrite a b :: later) (h : step s = .next t) :
    ¬ inBoundBuffer s.rast a = true ∧ t = (s.withInputs later).withMem (s.mem.write a b) := by
  by_cases hbound : inBoundBuffer s.rast a = true
  · rw [step_hostWrite_bound hin hbound] at h
    cases h
  · rw [step_hostWrite_free hin hbound] at h
    cases h
    exact ⟨hbound, rfl⟩

/-- Settles O55: a transaction changes what its port's unit may, and a host write memory. -/
theorem registersHaveTheirWriters : Obligations.RegistersHaveTheirWriters := by
  intro s t hstep x later hin
  cases x with
  | blockReset =>
    rw [step_of_blockReset hin] at hstep
    cases hstep
    exact ⟨fun _ => .inl rfl, fun _ => .inl rfl, fun _ => .inl rfl, fun h => absurd rfl h⟩
  | hostWrite a b =>
    obtain ⟨-, rfl⟩ := next_of_step_hostWrite hin hstep
    exact ⟨fun h => absurd rfl h, fun h => absurd rfl h, fun h => absurd rfl h, fun _ => ⟨a, b, rfl⟩⟩
  | op tr =>
    rw [step_of_op hin] at hstep
    have hframe := changesOnly_of_exec hstep
    rw [unitOf_fetchInstr] at hframe
    refine ⟨fun h => ?_, fun h => ?_, fun h => ?_, fun h => absurd hframe.mem h⟩
    · obtain ⟨r, rfl⟩ := eq_cfgIn_of_unitOfPort (not_imp_comm.mp hframe.cfg h)
      exact .inr ⟨r, rfl⟩
    · by_cases hcfg : unitOfPort tr = .cfg
      · obtain ⟨r, rfl⟩ := eq_cfgIn_of_unitOfPort hcfg
        exact .inr (.inl ⟨r, rfl⟩)
      · obtain rfl | ⟨b, bs, rfl⟩ := eq_rx_of_unitOfPort (not_imp_comm.mp (hframe.dec hcfg) h)
        · exact .inr (.inr (.inl rfl))
        · exact .inr (.inr (.inr ⟨b, bs, rfl⟩))
    · obtain ⟨q, rfl⟩ := eq_rastCtl_of_unitOfPort (not_imp_comm.mp hframe.rast h)
      exact .inr ⟨q, rfl⟩

/-! ### A step on RX bytes -/

/-- What is left of an RX transaction stays first among the pending inputs. -/
theorem fetchRest_rx (cfg : Cfg) (b : Byte) (bs : List Byte) (later : List Input) :
    fetchRest cfg (.rx b bs) later = match (decodeRx cfg b bs).2 with
      | [] => later
      | c :: cs => .op (.rx c cs) :: later := by
  change (match rxOf (decodeRx cfg b bs).2 with
    | none => later
    | some t' => .op t' :: later) = _
  cases (decodeRx cfg b bs).2 <;> rfl

/-- A step on RX bytes executes the bytes in front of what it leaves, the first one at least. -/
theorem step_rx {s : State} {b : Byte} {bs : List Byte} {later : List Input} (h : s.inputs = .op (.rx b bs) :: later) :
    ∃ taken, taken ≠ [] ∧ b :: bs = taken ++ (decodeRx s.cfg b bs).2 ∧
      step s = execDec taken (s.withInputs (fetchRest s.cfg (.rx b bs) later)) := by
  rw [step_of_op h]
  change ∃ taken, taken ≠ [] ∧ b :: bs = taken ++ (decodeRx s.cfg b bs).2 ∧ exec (decodeRx s.cfg b bs).1 _ = _
  obtain ⟨k, f, after, hdec, hbs⟩ | hdec := decodeRx_cases s.cfg b bs
  · exact ⟨frameBytes s.cfg k f, List.cons_ne_nil _ _, by rw [hdec, hbs], by rw [hdec]; exact exec_frameInstr k f _⟩
  · exact ⟨[b], List.cons_ne_nil _ _, by rw [hdec]; rfl, by rw [hdec, execDec_eq]; rfl⟩

/-- Settles O7: the bytes taken are a frame or one byte, and what follows them stays pending. -/
theorem stepOnRxBytesIsDecByteByByte : Obligations.StepOnRxBytesIsDecByteByByte := by
  intro s b bs later h
  obtain ⟨taken, hne, hbs, hstep⟩ := step_rx h
  rw [execDec_eq] at hstep
  have hpending : (receiveBytes taken (s.withInputs (fetchRest s.cfg (.rx b bs) later))).inputs =
      fetchRest s.cfg (.rx b bs) later := by rw [receiveBytes_eq]; rfl
  refine ⟨taken.length, _, List.length_pos_of_ne_nil hne, ?_, hstep, ?_, ?_⟩
  · have := congrArg List.length hbs
    simp only [List.length_cons, List.length_append] at this
    omega
  · rw [hbs, List.take_left, hpending]
    exact execDec_eq _ _
  · rw [hbs, List.drop_left, hpending]
    exact fetchRest_rx s.cfg b bs later

end Sys2Proof.Machine
end

section
/-! One byte into the decoder, from any state: the moves it can make (41_decoder.md rules R160 to R169). -/

namespace Sys2Proof.Machine

/-- The registers after a payload byte: the entry, the checksum and the count, and the state by the count (R164). -/
def storeByte (cfg : Cfg) (d : Dec) (b : Byte) : Dec :=
  { d with
    buf := d.buf.write d.count.toNat b
    acc := ckUpdate cfg d.acc b
    count := d.count + 1
    state := if d.count.toNat + 1 = d.len.toNat then .awaitChecksum else .awaitPayload }

theorem storeByte_state_last {cfg : Cfg} {d : Dec} {b : Byte} (h : d.count.toNat + 1 = d.len.toNat) :
    (storeByte cfg d b).state = .awaitChecksum := if_pos h

theorem storeByte_state_more {cfg : Cfg} {d : Dec} {b : Byte} (h : d.count.toNat + 1 ≠ d.len.toNat) :
    (storeByte cfg d b).state = .awaitPayload := if_neg h

@[simp] theorem storeByte_len (cfg : Cfg) (d : Dec) (b : Byte) : (storeByte cfg d b).len = d.len := rfl

theorem storeByte_count_toNat {cfg : Cfg} {d : Dec} {b : Byte} (hc : d.count.toNat < d.len.toNat) :
    (storeByte cfg d b).count.toNat = d.count.toNat + 1 := count_succ_toNat hc

/-- The moves of the decoder on a byte, with what leads to each. A payload byte is described with its count in range, as `decOk` has it. -/
inductive DecMove (cfg : Cfg) (d : Dec) (b : Byte) : Dec × Option DecEvent → Prop where
  | skipped (hs : d.state = .awaitHeader) (hb : kindOf cfg b = none) : DecMove cfg d b (d, none)
  | started {k : Kind} (hs : d.state = .awaitHeader) (hb : kindOf cfg b = some k) :
      DecMove cfg d b ({ d with kind := k, acc := ckUpdate cfg ckInit b, state := .awaitLength0 }, none)
  | lengthLow (hs : d.state = .awaitLength0) :
      DecMove cfg d b ({ d with lenLo := b, acc := ckUpdate cfg d.acc b, state := .awaitLength1 }, none)
  | lengthRefused (hs : d.state = .awaitLength1) : DecMove cfg d b (corrupt { d with acc := ckUpdate cfg d.acc b })
  | lengthAccepted (hs : d.state = .awaitLength1) (hmax : (joinLE d.lenLo b).toNat ≤ cfg.maxPayload.toNat)
      (hshape : shapeOk cfg d.kind (joinLE d.lenLo b).toNat = true) :
      DecMove cfg d b
        ({ d with acc := ckUpdate cfg d.acc b, len := joinLE d.lenLo b,
                  count := if joinLE d.lenLo b = 0 then d.count else 0,
                  state := if joinLE d.lenLo b = 0 then .awaitChecksum else .awaitPayload }, none)
  | stored {d' : Dec} (hs : d.state = .awaitPayload) (hd : d.count.toNat < d.len.toNat → d' = storeByte cfg d b) :
      DecMove cfg d b (d', none)
  | checksumMatched (hs : d.state = .awaitChecksum) : DecMove cfg d b ({ d with state := .awaitTerminator0 }, none)
  | term0Matched (hs : d.state = .awaitTerminator0) : DecMove cfg d b ({ d with state := .awaitTerminator1 }, none)
  | refused (hs : d.state = .awaitChecksum ∨ d.state = .awaitTerminator0 ∨ d.state = .awaitTerminator1) :
      DecMove cfg d b (corrupt d)
  | ended (hs : d.state = .awaitTerminator1) :
      DecMove cfg d b ({ d with state := .awaitHeader }, some (build cfg d.kind (bufPayload d)))

/-- A payload byte gives no event. -/
theorem decStep_payload_silent {cfg : Cfg} {d : Dec} (b : Byte) (hs : d.state = .awaitPayload) :
    (decStep cfg d b).2 = none := by
  simp only [decStep, hs]
  split <;> rfl

/-- Every byte makes one of the moves. -/
theorem decMove_decStep (cfg : Cfg) (d : Dec) (b : Byte) : DecMove cfg d b (decStep cfg d b) := by
  cases hs : d.state with
  | awaitHeader =>
    cases hb : kindOf cfg b with
    | none => exact decStep_header_none hs hb ▸ .skipped hs hb
    | some k => exact decStep_header_some hs hb ▸ .started hs hb
  | awaitLength0 => exact decStep_length0 b hs ▸ .lengthLow hs
  | awaitLength1 =>
    by_cases hbad : cfg.maxPayload.toNat < (joinLE d.lenLo b).toNat ∨ shapeOk cfg d.kind (joinLE d.lenLo b).toNat = false
    · exact decStep_length1_refused hs hbad ▸ .lengthRefused hs
    · obtain ⟨hmax, hshape⟩ : (joinLE d.lenLo b).toNat ≤ cfg.maxPayload.toNat ∧
          shapeOk cfg d.kind (joinLE d.lenLo b).toNat = true := by simpa using hbad
      exact decStep_length1_accepted hs hmax hshape ▸ .lengthAccepted hs hmax hshape
  | awaitPayload =>
    have hsilent : decStep cfg d b = ((decStep cfg d b).1, none) := Prod.ext rfl (decStep_payload_silent b hs)
    rw [hsilent]
    exact .stored hs fun hc => congrArg Prod.fst (decStep_payload b hs hc)
  | awaitChecksum =>
    by_cases hb : b = ckFinal d.acc
    · subst hb
      exact decStep_checksum_eq hs ▸ .checksumMatched hs
    · exact decStep_checksum_ne hs hb ▸ .refused (.inl hs)
  | awaitTerminator0 =>
    by_cases hb : b = cfg.term0
    · subst hb
      exact decStep_term0_eq hs ▸ .term0Matched hs
    · exact decStep_term0_ne hs hb ▸ .refused (.inr (.inl hs))
  | awaitTerminator1 =>
    by_cases hb : b = cfg.term1
    · subst hb
      exact decStep_term1_eq hs ▸ .ended hs
    · exact decStep_term1_ne hs hb ▸ .refused (.inr (.inr hs))

/-- The event of a good frame is never an error. -/
theorem build_ne_error (cfg : Cfg) (k : Kind) (p : List Byte) (e : ErrorEvent) : build cfg k p ≠ .error e := by
  cases k <;> nofun

/-- FRAME_CORRUPT writes DEC.state alone, and DEC.acc after a length that is refused (R169, log 7). -/
theorem decStep_of_corrupt {cfg : Cfg} {d : Dec} {b : Byte}
    (h : (decStep cfg d b).2 = some (.error .frameCorrupt)) :
    { (decStep cfg d b).1 with acc := d.acc } = { d with state := .awaitHeader } ∧
      (d.state ≠ .awaitLength1 → (decStep cfg d b).1.acc = d.acc) := by
  have hmove := decMove_decStep cfg d b
  generalize decStep cfg d b = r at h hmove
  cases hmove with
  | lengthRefused hs => exact ⟨rfl, fun hne => absurd hs hne⟩
  | refused => exact ⟨rfl, fun _ => rfl⟩
  | ended => exact absurd (Option.some.inj h) (build_ne_error _ _ _ _)
  | skipped | started | lengthLow | lengthAccepted | stored | checksumMatched | term0Matched => cases h

/-- Settles O30: the registers and the event are the two parts of `decStep`. -/
theorem decByteGivesAtMostOneEvent : Obligations.DecByteGivesAtMostOneEvent := by
  intro s b
  refine ⟨(decStep s.cfg s.dec b).1, (decStep s.cfg s.dec b).2.toList, rfl, Option.length_toList_le, ?_, ?_⟩
  · intro hne
    obtain ⟨ev, hev⟩ := Option.ne_none_iff_exists'.mp (mt Option.toList_eq_nil_iff.mpr hne)
    exact decStep_event hev
  · intro hmem
    exact decStep_of_corrupt (Option.mem_toList.mp hmem)

/-- Settles O26: the length is refused, or accepted with its two ways on. -/
theorem byteInAwaitLength1 : Obligations.ByteInAwaitLength1 := by
  intro s b L hs hL
  obtain rfl : L = (joinLE s.dec.lenLo b).toNat := hL.trans (joinLE_toNat _ _).symm
  refine ⟨fun hbad => exec_decByte_event (decStep_length1_refused hs hbad),
    fun hmax hshape h0 => ?_, fun hmax hshape h0 => ?_⟩
  · have hzero : joinLE s.dec.lenLo b = 0 := BitVec.eq_of_toNat_eq h0
    have hstep := decStep_length1_accepted hs hmax hshape
    rw [hzero] at hstep
    exact exec_decByte_silent hstep
  · have hzero : joinLE s.dec.lenLo b ≠ 0 := fun h => h0 (by rw [h]; rfl)
    have hstep := decStep_length1_accepted hs hmax hshape
    rw [if_neg hzero, if_neg hzero] at hstep
    rw [BitVec.ofNat_toNat, BitVec.setWidth_eq]
    exact exec_decByte_silent hstep

end Sys2Proof.Machine
end

section
/-! The decoder's invariants through a byte and a run of bytes, and its bounded return to AwaitHeader (10_state.md section 4, 41_decoder.md rule R173). -/

namespace Sys2Proof.Machine

/-! ### Registers and BUF -/

/-- One entry more of BUF is written. -/
theorem bufWritten_write {d d' : Dec} {n : Nat} {b : Byte} (h : bufWritten d n) (hbuf : d'.buf = d.buf.write n b) :
    bufWritten d' (n + 1) := by
  intro i hi
  rw [hbuf, Memory.read?_write]
  by_cases hin : i = n
  · rw [if_pos hin]; rfl
  · rw [if_neg hin]; exact h i (by omega)

/-- The decoder back in AwaitHeader promises only that BUF is in its form. -/
theorem decOk_awaitHeader {c c' : Cfg} {d : Dec} (h : decOk c d) : decOk c' { d with state := .awaitHeader } :=
  ⟨h.1, h.2.1, trivial⟩

/-- While payload bytes are awaited, DEC.count is an index that the frame still needs (R37). -/
theorem count_lt_len_of_decOk {cfg : Cfg} {d : Dec} (h : decOk cfg d) (hs : d.state = .awaitPayload) :
    d.count.toNat < d.len.toNat := by
  obtain ⟨-, -, hst⟩ := h
  rw [hs] at hst
  exact hst.2.1

/-- A byte keeps the promises of the decoder's registers (R34 to R39). -/
theorem decOk_decStep {cfg : Cfg} {d : Dec} (h : decOk cfg d) (b : Byte) : decOk cfg (decStep cfg d b).1 := by
  have hcount := count_lt_len_of_decOk h
  obtain ⟨hwf, hbounded, hst⟩ := h
  have hmove := decMove_decStep cfg d b
  generalize decStep cfg d b = r at hmove
  cases hmove with
  | skipped => exact ⟨hwf, hbounded, hst⟩
  | started | lengthLow | lengthRefused | refused | ended => exact ⟨hwf, hbounded, trivial⟩
  | lengthAccepted hs hmax hshape =>
    by_cases h0 : joinLE d.lenLo b = 0
    · simp only [h0] at hmax hshape ⊢
      exact ⟨hwf, hbounded, ⟨hmax, hshape⟩, fun i hi => absurd hi (Nat.not_lt_zero i)⟩
    · simp only [if_neg h0]
      exact ⟨hwf, hbounded, ⟨hmax, hshape⟩, toNat_pos_of_ne_zero h0, fun i hi => absurd hi (Nat.not_lt_zero i)⟩
  | stored hs hd =>
    have hc := hcount hs
    rw [hs] at hst
    obtain ⟨hlen, -, hwritten⟩ := hst
    obtain rfl := hd hc
    refine ⟨Memory.wf_write hwf _ _, fun x hx => ?_, ?_⟩
    · obtain hx | hx := Memory.mem_write hx
      · have := d.len.isLt
        unfold bufSize
        omega
      · exact hbounded x hx
    · have hwritten' : bufWritten (storeByte cfg d b) (d.count.toNat + 1) := bufWritten_write hwritten rfl
      by_cases hlast : d.count.toNat + 1 = d.len.toNat
      · simp only [storeByte_state_last hlast]
        exact ⟨hlen, hlast ▸ hwritten'⟩
      · simp only [storeByte_state_more hlast]
        rw [storeByte_count_toNat hc]
        exact ⟨hlen, Nat.lt_of_le_of_ne hc hlast, hwritten'⟩
  | checksumMatched hs | term0Matched hs =>
    rw [hs] at hst
    exact ⟨hwf, hbounded, hst⟩

/-! ### The running checksum -/

/-- One byte more in the running checksum (R91). -/
theorem ckUpdate_ck (cfg : Cfg) (xs : List Byte) (b : Byte) : ckUpdate cfg (ck cfg xs) b = ck cfg (xs ++ [b]) := by
  simp [ck, ckFinal]

/-- The payload so far, with the byte just stored. -/
theorem map_bufRead_write {d d' : Dec} {n : Nat} {b : Byte} (hbuf : d'.buf = d.buf.write n b)
    (hepoch : d'.bufEpoch = d.bufEpoch) :
    (List.range (n + 1)).map (bufRead d') = (List.range n).map (bufRead d) ++ [b] := by
  have hold : ∀ i ∈ List.range n, bufRead d' i = bufRead d i := fun i hi =>
    bufRead_congr (by rw [hbuf, Memory.read?_write_other _ _ (Nat.ne_of_lt (List.mem_range.mp hi))]) hepoch
  have hnew : bufRead d' n = b := by
    rw [bufRead, hbuf, Memory.read?_write_same]
    rfl
  rw [List.range_succ, List.map_append, List.map_congr_left hold, List.map_singleton, hnew]

/-- A byte keeps DEC.acc the running checksum (R38). -/
theorem accOk_decStep {cfg : Cfg} {d : Dec} (hok : decOk cfg d) (h : accOk cfg d) (b : Byte) :
    accOk cfg (decStep cfg d b).1 := by
  have hcount := count_lt_len_of_decOk hok
  have hmove := decMove_decStep cfg d b
  generalize decStep cfg d b = r at hmove
  unfold accOk at h
  cases hmove with
  | skipped hs _ => simp only [accOk, hs]
  | lengthRefused | refused | ended => trivial
  | started hs hb =>
    rw [eq_opcodeOf_of_kindOf hb]
    rfl
  | lengthLow hs =>
    rw [hs] at h
    simp only [accOk, h, ckUpdate_ck]
    rfl
  | lengthAccepted hs hmax hshape =>
    rw [hs] at h
    by_cases h0 : joinLE d.lenLo b = 0
    · simp only [accOk, if_pos h0, loByte_joinLE, hiByte_joinLE, h, ckUpdate_ck]
      simp [bufPayload, h0]
    · simp only [accOk, if_neg h0, loByte_joinLE, hiByte_joinLE, h, ckUpdate_ck]
      simp
  | stored hs hd =>
    have hc := hcount hs
    rw [hs] at h
    obtain rfl := hd hc
    have hpayload := map_bufRead_write (d := d) (d' := storeByte cfg d b) rfl rfl
    have hacc : (storeByte cfg d b).acc = ck cfg (opcodeOf cfg d.kind :: loByte d.len :: hiByte d.len ::
        (List.range (d.count.toNat + 1)).map (bufRead (storeByte cfg d b))) := by
      rw [hpayload]
      exact (congrArg (ckUpdate cfg · b) h).trans (ckUpdate_ck _ _ _)
    by_cases hlast : d.count.toNat + 1 = d.len.toNat
    · rw [hlast] at hacc
      simp only [accOk, storeByte_state_last hlast]
      exact hacc
    · rw [← storeByte_count_toNat (cfg := cfg) (b := b) hc] at hacc
      simp only [accOk, storeByte_state_more hlast]
      exact hacc
  | checksumMatched hs | term0Matched hs =>
    rw [hs] at h
    exact h

/-! ### Runs of bytes -/

/-- What every byte keeps, a run of bytes keeps. -/
theorem decBytes_induction {cfg : Cfg} {P : Dec → Prop} (hstep : ∀ d b, P d → P (decStep cfg d b).1) (bs : List Byte)
    {d : Dec} (h : P d) : P (decBytes cfg bs d).1 := by
  induction bs generalizing d with
  | nil => exact h
  | cons b bs ih => exact ih (hstep d b h)

theorem decOk_decBytes {cfg : Cfg} (bs : List Byte) {d : Dec} (h : decOk cfg d) : decOk cfg (decBytes cfg bs d).1 :=
  decBytes_induction (P := decOk cfg) (fun _ b hd => decOk_decStep hd b) bs h

theorem accOk_decBytes {cfg : Cfg} (bs : List Byte) {d : Dec} (hok : decOk cfg d) (h : accOk cfg d) :
    accOk cfg (decBytes cfg bs d).1 :=
  (decBytes_induction (P := fun d => decOk cfg d ∧ accOk cfg d)
    (fun _ b hd => ⟨decOk_decStep hd.1 b, accOk_decStep hd.1 hd.2 b⟩) bs ⟨hok, h⟩).2

/-! ### Bounded return -/

/-- How many bytes at most keep the decoder away from AwaitHeader (R173). -/
def bytesToHeader (cfg : Cfg) (d : Dec) : Nat :=
  match d.state with
  | .awaitHeader => 0
  | .awaitLength0 => 5 + cfg.maxPayload.toNat
  | .awaitLength1 => 4 + cfg.maxPayload.toNat
  | .awaitPayload => 3 + (d.len.toNat - d.count.toNat)
  | .awaitChecksum => 3
  | .awaitTerminator0 => 2
  | .awaitTerminator1 => 1

theorem bytesToHeader_le {cfg : Cfg} {d : Dec} (h : decOk cfg d) : bytesToHeader cfg d ≤ 5 + cfg.maxPayload.toNat := by
  obtain ⟨-, -, hst⟩ := h
  unfold bytesToHeader
  cases hs : d.state with
  | awaitPayload =>
    rw [hs] at hst
    have hmax := hst.1.1
    simp only
    omega
  | _ => simp only; omega

/-- Outside AwaitHeader each byte brings the decoder nearer to it. -/
theorem bytesToHeader_decStep_lt {cfg : Cfg} {d : Dec} (h : decOk cfg d) (hne : d.state ≠ .awaitHeader) (b : Byte) :
    bytesToHeader cfg (decStep cfg d b).1 < bytesToHeader cfg d := by
  have hcount := count_lt_len_of_decOk h
  have hmove := decMove_decStep cfg d b
  generalize decStep cfg d b = r at hmove
  cases hmove with
  | skipped hs | started hs => exact absurd hs hne
  | lengthLow hs | lengthRefused hs | checksumMatched hs | term0Matched hs | ended hs =>
    simp only [bytesToHeader, hs, corrupt]
    omega
  | refused hs => obtain hs | hs | hs := hs <;> simp [bytesToHeader, hs, corrupt]
  | lengthAccepted hs hmax hshape =>
    by_cases h0 : joinLE d.lenLo b = 0
    · simp only [bytesToHeader, hs, if_pos h0]
      omega
    · simp only [bytesToHeader, hs, if_neg h0]
      omega
  | stored hs hd =>
    have hc := hcount hs
    obtain rfl := hd hc
    by_cases hlast : d.count.toNat + 1 = d.len.toNat
    · simp only [bytesToHeader, hs, storeByte_state_last hlast]
      omega
    · simp only [bytesToHeader, hs, storeByte_state_more hlast, storeByte_len, storeByte_count_toNat hc]
      omega

/-- Enough bytes bring the decoder to AwaitHeader on the way. -/
theorem exists_take_awaitHeader {cfg : Cfg} (bs : List Byte) {d : Dec} (h : decOk cfg d)
    (hlen : bytesToHeader cfg d ≤ bs.length) :
    ∃ n, n ≤ bs.length ∧ (decBytes cfg (bs.take n) d).1.state = .awaitHeader := by
  induction bs generalizing d with
  | nil =>
    refine ⟨0, Nat.le_refl _, ?_⟩
    by_contra hne
    have := bytesToHeader_decStep_lt h hne 0
    simp only [List.length_nil] at hlen
    omega
  | cons b bs ih =>
    by_cases hs : d.state = .awaitHeader
    · exact ⟨0, Nat.zero_le _, hs⟩
    · have hlt := bytesToHeader_decStep_lt h hs b
      simp only [List.length_cons] at hlen
      obtain ⟨n, hn, hstate⟩ := ih (decOk_decStep h b) (by omega)
      exact ⟨n + 1, Nat.succ_le_succ hn, hstate⟩

/-- Settles O22: 5 + MAX_PAYLOAD bounds the way from every state that meets `decOk`. -/
theorem decoderReturnsToAwaitHeader : Obligations.DecoderReturnsToAwaitHeader := by
  rintro s bs ⟨-, hdec, -, -⟩ hlen
  obtain ⟨n, hn, hstate⟩ := exists_take_awaitHeader bs hdec (hlen ▸ bytesToHeader_le hdec)
  exact ⟨n, _, hn, execDec_of_decBytes rfl, hstate⟩

end Sys2Proof.Machine
end

section
/-! The invariants of the machine through a step, and the runs of a host that keeps its duty (10_state.md sections 3, 4 and 6, 20_memory.md rules R68 and R70). -/

namespace Sys2Proof.Machine

/-! ### What an instruction does to CFG and DEC -/

/-- An instruction of DEC clears the decoder or feeds it bytes. -/
theorem exec_dec_bytes {i : Instr} (h : unitOf i = .dec) (s : State) :
    i = .decClear ∨ ∃ bs, exec i s = execDec bs s := by
  cases i with
  | print f => exact .inr ⟨_, exec_frameInstr .print f s⟩
  | feed f => exact .inr ⟨_, exec_frameInstr .feed f s⟩
  | setHeat f => exact .inr ⟨_, exec_frameInstr .setHeat f s⟩
  | queryStatus f => exact .inr ⟨_, exec_frameInstr .queryStatus f s⟩
  | reset f => exact .inr ⟨_, exec_frameInstr .reset f s⟩
  | statusReport f => exact .inr ⟨_, exec_frameInstr .statusReport f s⟩
  | decByte b => exact .inr ⟨[b], (execDec_eq [b] s).symm⟩
  | decClear => exact .inl rfl
  | cfgLoad | enc | rastStart | rastNext | rastRestart => cases h

/-- The decoder takes bytes under the configuration as it is, or is put back to AwaitHeader, where the configuration may be a newly loaded one. -/
theorem cfg_dec_of_exec {i : Instr} {s t : State} (h : exec i s = .next t) :
    (t.cfg = s.cfg ∧ ∃ bs, t.dec = (decBytes s.cfg bs s.dec).1) ∨
    (t.dec = { s.dec with state := .awaitHeader } ∧
      (t.cfg = s.cfg ∨ ∃ r, firstFailingCheck r = none ∧ t.cfg = cfgOf r)) := by
  have hframe := changesOnly_of_exec h
  cases hu : unitOf i with
  | enc | rast =>
    rw [hu] at hframe
    exact .inl ⟨hframe.cfg nofun, [], hframe.dec nofun nofun⟩
  | dec =>
    obtain rfl | ⟨bs, hexec⟩ := exec_dec_bytes hu s
    · cases h
      exact .inr ⟨rfl, .inl rfl⟩
    · rw [hexec, execDec_of_decBytes rfl] at h
      cases h
      exact .inl ⟨rfl, bs, rfl⟩
  | cfg =>
    cases i with
    | cfgLoad r =>
      cases hr : firstFailingCheck r with
      | some n =>
        rw [exec_cfgLoad_of_failing hr] at h
        cases h
        exact .inl ⟨rfl, [], rfl⟩
      | none =>
        rw [exec_cfgLoad_of_valid hr] at h
        cases h
        exact .inr ⟨rfl, .inr ⟨r, hr, rfl⟩⟩
    | _ => cases hu

/-! ### What an instruction does to RAST -/

/-- The moves of RAST's registers, with the instruction that makes each. -/
inductive RastMove : Instr → Rast → Rast → Prop where
  | keep {i : Instr} {r : Rast} : RastMove i r r
  | fail {img : ImageDesc} {w : Word} {dither : Bool} {r : Rast} :
      RastMove (.rastStart img w dither) r { r with state := .idle }
  | bind {img : ImageDesc} {w : Word} {dither : Bool} {r : Rast} (h : bindsImage img w) :
      RastMove (.rastStart img w dither) r (boundRast img w dither)
  | row {r : Rast} (hy : r.y ≠ r.H) : RastMove .rastNext r { r with y := r.y + 1 }
  | rewind {r : Rast} : RastMove .rastRestart r { r with y := 0 }

theorem rastMove_of_rastNext {s t : State} (h : exec .rastNext s = .next t) : RastMove .rastNext s.rast t.rast := by
  cases hs : s.rast.state with
  | idle =>
    rw [exec_rastNext_idle hs] at h
    cases h
    exact .keep
  | active =>
    by_cases hy : s.rast.y = s.rast.H
    · rw [exec_rastNext_end hs hy] at h
      cases h
      exact .keep
    · cases hrow : rastRow s.mem s.rast s.rast.y.toNat with
      | ok row =>
        rw [exec_rastNext_row hs hy hrow] at h
        cases h
        exact .row hy
      | error e =>
        rw [exec_rastNext_fault hs hy hrow] at h
        cases h

theorem rastMove_of_rastRestart {s t : State} (h : exec .rastRestart s = .next t) :
    RastMove .rastRestart s.rast t.rast := by
  obtain ⟨hactive, hidle⟩ := rastRestartRewinds s
  cases hs : s.rast.state with
  | idle =>
    rw [hidle hs] at h
    cases h
    exact .keep
  | active =>
    rw [hactive hs] at h
    cases h
    exact .rewind

/-- Every instruction that completes makes one of the moves. -/
theorem rastMove_of_exec {i : Instr} {s t : State} (h : exec i s = .next t) : RastMove i s.rast t.rast := by
  cases hu : unitOf i with
  | cfg | enc | dec =>
    rw [(changesOnly_of_exec h).rast (by rw [hu]; nofun)]
    exact .keep
  | rast =>
    cases i with
    | rastStart img w dither =>
      by_cases hbinds : bindsImage img w
      · rw [exec_rastStart_boundRast hbinds] at h
        cases h
        exact .bind hbinds
      · rw [exec_rastStart_of_not_bindsImage hbinds] at h
        cases h
        exact .fail
    | rastNext => exact rastMove_of_rastNext h
    | rastRestart => exact rastMove_of_rastRestart h
    | _ => cases hu

/-- The moves keep RAST's registers consistent (R45, R200). -/
theorem rastOk_of_rastMove {i : Instr} {r r' : Rast} (h : RastMove i r r') (hok : rastOk r) : rastOk r' := by
  cases h with
  | keep => exact hok
  | fail => exact ⟨hok.1, nofun⟩
  | bind hbinds => exact rastOk_boundRast hbinds _
  | row hy => exact (rastOk_next_row hok hy).1
  | rewind => exact ⟨Nat.zero_le _, hok.2⟩

/-- A running conversion has the image it had, or the one that a RAST_START has just bound. -/
theorem img_of_rastMove {i : Instr} {r r' : Rast} (h : RastMove i r r') (hactive : r'.state = .active) :
    (r.state = .active ∧ r'.img = r.img) ∨
    ∃ img w dither, i = .rastStart img w dither ∧ bindsImage img w ∧ r'.img = img := by
  cases h with
  | keep | row | rewind => exact .inl ⟨hactive, rfl⟩
  | fail => cases hactive
  | bind hbinds => exact .inr ⟨_, _, _, rfl, hbinds, rfl⟩

/-! ### The invariant -/

/-- Settles O10: the reset values are read off State.reset. -/
theorem resetStateHoldsTheResetValues : Obligations.ResetStateHoldsTheResetValues := by
  refine ⟨?_, ?_, ?_, ?_, ?_, ?_, ?_, ?_, ?_, ?_, ?_, ?_, ?_, ?_, ?_, ?_, ?_, ?_, ?_⟩ <;> rfl

theorem decOk_reset (c : Cfg) (epoch : Nat) : decOk c (Dec.reset epoch) :=
  ⟨List.Pairwise.nil, nofun, trivial⟩

theorem rastOk_reset : rastOk Rast.reset := ⟨Nat.le_refl _, nofun⟩

/-- Settles O11: the reset configuration is valid, and no unit has anything under way. -/
theorem resetMeetsTheInvariants : Obligations.ResetMeetsTheInvariants :=
  ⟨⟨cfgValid_reset, decOk_reset _ _, rastOk_reset, Memory.wf_reset⟩, trivial⟩

theorem inv_of_exec {i : Instr} {s t : State} (hinv : Inv s) (h : exec i s = .next t) : Inv t := by
  obtain ⟨hcfg, hdec, hrast, hmem⟩ := hinv
  have hmem' : t.mem.wf := by rw [(changesOnly_of_exec h).mem]; exact hmem
  have hrast' := rastOk_of_rastMove (rastMove_of_exec h) hrast
  obtain ⟨hc, bs, hd⟩ | ⟨hd, hc⟩ := cfg_dec_of_exec h
  · refine ⟨by rw [hc]; exact hcfg, ?_, hrast', hmem'⟩
    rw [hc, hd]
    exact decOk_decBytes bs hdec
  · refine ⟨?_, by rw [hd]; exact decOk_awaitHeader hdec, hrast', hmem'⟩
    obtain hc | ⟨r, hr, hc⟩ := hc
    · rw [hc]; exact hcfg
    · rw [hc]; exact cfgValid_cfgOf hr

/-- A step that answers is one of these. -/
theorem step_next_cases {s t : State} (h : step s = .next t) :
    (s.inputs = [] ∧ t = s) ∨
    (∃ later, t = blockReset (s.withInputs later)) ∨
    (∃ a b later, s.inputs = .hostWrite a b :: later ∧ ¬ inBoundBuffer s.rast a = true ∧
      t = (s.withInputs later).withMem (s.mem.write a b)) ∨
    (∃ tr later rest, s.inputs = .op tr :: later ∧ exec (fetchInstr s.cfg tr) (s.withInputs rest) = .next t) := by
  match hin : s.inputs with
  | [] =>
    rw [step_of_nil hin] at h
    cases h
    exact .inl ⟨rfl, rfl⟩
  | .blockReset :: later =>
    rw [step_of_blockReset hin] at h
    cases h
    exact .inr (.inl ⟨later, rfl⟩)
  | .hostWrite a b :: later =>
    obtain ⟨hfree, ht⟩ := next_of_step_hostWrite hin h
    exact .inr (.inr (.inl ⟨a, b, later, rfl, hfree, ht⟩))
  | .op tr :: later =>
    rw [step_of_op hin] at h
    exact .inr (.inr (.inr ⟨tr, later, _, rfl, h⟩))

/-- The invariant is kept by each of the four kinds of step. -/
theorem inv_of_step {s t : State} (hinv : Inv s) (h : step s = .next t) : Inv t := by
  have hkept := hinv
  obtain ⟨hcfg, hdec, hrast, hmem⟩ := hinv
  obtain ⟨-, rfl⟩ | ⟨later, rfl⟩ | ⟨a, b, later, -, -, rfl⟩ | ⟨tr, later, rest, -, hexec⟩ := step_next_cases h
  · exact hkept
  · exact ⟨cfgValid_reset, decOk_reset _ _, rastOk_reset, hmem⟩
  · exact ⟨hcfg, hdec, hrast, Memory.wf_write hmem a b⟩
  · exact inv_of_exec (s := s.withInputs rest) hkept hexec

/-- Settles O12: by the four kinds of step. -/
theorem stepKeepsTheInvariant : Obligations.StepKeepsTheInvariant :=
  fun _ _ => inv_of_step

/-- Settles O13: the decoder takes bytes, which keep the checksum running, or is in AwaitHeader, or is not touched. -/
theorem stepKeepsTheRunningChecksum : Obligations.StepKeepsTheRunningChecksum := by
  rintro s t ⟨-, hdec, -, -⟩ hacc h
  obtain ⟨-, rfl⟩ | ⟨later, rfl⟩ | ⟨a, b, later, -, -, rfl⟩ | ⟨tr, later, rest, -, hexec⟩ := step_next_cases h
  · exact hacc
  · trivial
  · exact hacc
  · obtain ⟨hc, bs, hd⟩ | ⟨hd, -⟩ := cfg_dec_of_exec hexec
    · rw [hc, hd]
      exact accOk_decBytes bs hdec hacc
    · rw [hd]
      trivial

/-! ### The host's duty -/

/-- A write takes no byte of a readable buffer away. -/
theorem imageProvided_write {m : Memory} {img : ImageDesc} (h : imageProvided m img) (a : Nat) (b : Byte) :
    imageProvided (m.write a b) img := by
  intro c hlow hhigh
  rw [Memory.read?_write]
  by_cases hc : c = a
  · rw [if_pos hc]; rfl
  · rw [if_neg hc]; exact h c hlow hhigh

/-- A step on an input that keeps the duty is not stuck. -/
theorem step_next_of_duty {s : State} (hinv : Inv s) (hbuf : boundBufferProvided s) (hduty : nextKeepsDuty s) :
    ∃ t, step s = .next t := by
  obtain hnext | ⟨later, a, hin, hactive, -, -, hfault⟩ | ⟨later, a, b, hin, hbound, -⟩ := step_outcome s
  · exact hnext
  · obtain ⟨-, -, hrast, -⟩ := hinv
    obtain ⟨t, ht⟩ := operationsComplete (s.withInputs (fetchRest s.cfg (.rastCtl .next) later)) .rastNext
      (.inr (.inr (.inr ⟨hrast, hbuf hactive⟩)))
    exact ⟨t, (step_of_op hin).trans ht⟩
  · exact absurd (inBoundBuffer_iff.mp hbound) ((nextKeepsDuty_cons hin).mp hduty)

/-- After it the bound buffer is readable: it was before, or the duty names it. -/
theorem boundBufferProvided_of_step {s t : State} (hbuf : boundBufferProvided s) (hduty : nextKeepsDuty s)
    (h : step s = .next t) : boundBufferProvided t := by
  obtain ⟨-, rfl⟩ | ⟨later, rfl⟩ | ⟨a, b, later, -, -, rfl⟩ | ⟨tr, later, rest, hin, hexec⟩ := step_next_cases h
  · exact hbuf
  · exact nofun
  · exact fun hactive => imageProvided_write (hbuf hactive) a b
  · intro hactive
    have hmem : t.mem = s.mem := (changesOnly_of_exec hexec).mem
    rw [hmem]
    obtain ⟨hwas, himg⟩ | ⟨img, w, dither, hi, hbinds, himg⟩ := img_of_rastMove (rastMove_of_exec hexec) hactive
    · rw [himg]
      exact hbuf hwas
    · obtain rfl := eq_start_of_fetchInstr hi
      rw [himg]
      exact (nextKeepsDuty_cons hin).mp hduty hbinds

/-- Settles O58: progress, the invariant's own step lemma, and the bound buffer's. -/
theorem stepKeepsTheBoundBufferReadable : Obligations.StepKeepsTheBoundBufferReadable := by
  intro s hinv hbuf hduty
  obtain ⟨t, ht⟩ := step_next_of_duty hinv hbuf hduty
  exact ⟨t, ht, inv_of_step hinv ht, boundBufferProvided_of_step hbuf hduty ht⟩

/-- Settles O15: by induction on the number of steps, each by `stepKeepsTheBoundBufferReadable`. -/
theorem hostDutyKeepsRunsUnstuck : Obligations.HostDutyKeepsRunsUnstuck := by
  intro s hinv hbuf hduty n
  induction n generalizing s with
  | zero => exact ⟨s, rfl⟩
  | succ n ih =>
    obtain ⟨hnext, hlater⟩ := hostKeepsDuty_step.mp hduty
    obtain ⟨t, ht, hinv', hbuf'⟩ := stepKeepsTheBoundBufferReadable s hinv hbuf hnext
    rw [core_run_succ, ht]
    exact ih t hinv' hbuf' (hlater t ht)

end Sys2Proof.Machine
end

section
/-! The two checksums: a changed byte changes them, and CRC8 as a remainder (30_encoding.md rules R89 to R91, 41_decoder.md rule R172). -/

namespace Sys2Proof.Machine

/-! ### CRC8 under its configuration -/

theorem ckUpdate_of_crc8 {cfg : Cfg} (h : cfg.checksumAlg = .crc8) : ckUpdate cfg = crcUpdate := by
  funext acc b
  simp only [ckUpdate, h]

/-- Settles O39: the fold of R90's update, evaluated. -/
theorem crc8CheckValues : Obligations.Crc8CheckValues := by
  intro cfg h
  simp only [ck, ckUpdate_of_crc8 h]
  decide +kernel

/-! ### A changed byte -/

/-- A shift backwards: bit 0 is the bit that was shifted out, since 0x07 has it set and a byte shifted left has not. -/
def crcUnshift (a : Byte) : Byte := if a.getLsbD 0 then ((a ^^^ 0x07) >>> 1) ||| 0x80 else a >>> 1

theorem crcUnshift_crcShift : ∀ a : Byte, crcUnshift (crcShift a) = a := by decide +kernel

theorem crcShift_injective : Function.Injective crcShift := Function.LeftInverse.injective crcUnshift_crcShift

theorem crcShifts_injective (n : Nat) : Function.Injective (crcShifts n) := by
  induction n with
  | zero => exact fun _ _ h => h
  | succ n ih => exact fun _ _ h => crcShift_injective (ih h)

theorem ckUpdate_injective_byte (cfg : Cfg) (acc : Byte) : Function.Injective (ckUpdate cfg acc) := by
  intro b c h
  cases halg : cfg.checksumAlg with
  | sum8 =>
    simp only [ckUpdate, halg, sumUpdate] at h
    exact BitVec.add_right_inj acc |>.mp h
  | crc8 =>
    simp only [ckUpdate, halg, crcUpdate] at h
    exact BitVec.xor_right_inj acc |>.mp (crcShifts_injective 8 h)

theorem ckUpdate_injective_acc (cfg : Cfg) (b : Byte) : Function.Injective fun acc => ckUpdate cfg acc b := by
  intro a c h
  cases halg : cfg.checksumAlg with
  | sum8 =>
    simp only [ckUpdate, halg, sumUpdate] at h
    exact BitVec.add_left_inj b |>.mp h
  | crc8 =>
    simp only [ckUpdate, halg, crcUpdate] at h
    exact BitVec.xor_left_inj b |>.mp (crcShifts_injective 8 h)

/-- The bytes after a difference cannot undo it. -/
theorem foldl_ckUpdate_injective (cfg : Cfg) (bs : List Byte) :
    Function.Injective fun acc => bs.foldl (ckUpdate cfg) acc := by
  induction bs with
  | nil => exact fun _ _ h => h
  | cons b bs ih => exact fun _ _ h => ckUpdate_injective_acc cfg b (ih h)

/-- Two byte lists that differ in one place have different checksums (R172). -/
theorem ck_set_ne (cfg : Cfg) {d : List Byte} {j : Nat} {b : Byte} (hj : j < d.length) (hb : d[j]? ≠ some b) :
    ck cfg (d.set j b) ≠ ck cfg d := by
  have hne : b ≠ d[j] := fun h => hb (by rw [h, List.getElem?_eq_getElem hj])
  have hd : d = d.take j ++ d[j] :: d.drop (j + 1) := by rw [List.getElem_cons_drop, List.take_append_drop]
  rw [List.set_eq_take_append_cons_drop, if_pos hj]
  conv => rhs; rw [hd]
  simp only [ck, ckFinal, List.foldl_append, List.foldl_cons]
  exact fun h => hne (ckUpdate_injective_byte cfg _ (foldl_ckUpdate_injective cfg _ h))

/-! ### A frame with a changed payload byte -/

/-- Three bytes stand before the payload, and its length stays. -/
theorem frameBody_set (cfg : Cfg) (k : Kind) (p : List Byte) (j : Nat) (b : Byte) :
    frameBody cfg k (p.set j b) = (frameBody cfg k p).set (3 + j) b := by
  rw [Nat.add_comm]
  simp only [frameBody, List.length_set]
  rfl

/-- A changed payload byte leaves the header, the checksum byte and the terminator as they are. -/
theorem frameOf_set_payload (cfg : Cfg) (k : Kind) {p : List Byte} {j : Nat} (hj : j < p.length) (b : Byte) :
    (frameOf cfg k p).set (3 + j) b =
      frameBody cfg k (p.set j b) ++ [ck cfg (frameBody cfg k p), cfg.term0, cfg.term1] := by
  rw [frameOf_eq_frameBody_append, List.set_append_left _ _ (by rw [frameBody_length]; omega), frameBody_set]

/-- The checksum byte of the frame is refused, and the bytes before it are silent. -/
theorem endsCorrupt_changed_payload {cfg : Cfg} (hcfg : cfgValid cfg) {k : Kind} {p : List Byte} (hp : legalPayload cfg k p)
    {j : Nat} {b : Byte} (hj : j < p.length) (hb : p[j]? ≠ some b) {d : Dec} (hs : d.state = .awaitHeader) :
    (decBytes cfg (frameBody cfg k (p.set j b)) d).2 = [] ∧
      endsCorrupt cfg d (frameBody cfg k (p.set j b) ++ [ck cfg (frameBody cfg k p)]) := by
  have hp' : legalPayload cfg k (p.set j b) := by simpa only [legalPayload, List.length_set] using hp
  obtain ⟨e, hrun, hstate, -, -, hck⟩ := decBytes_frameBody hcfg hp' hs
  refine ⟨by rw [hrun], endsCorrupt_concat hrun (decStep_checksum_ne hstate ?_)⟩
  rw [hck, frameBody_set]
  refine (ck_set_ne cfg ?_ ?_).symm
  · rw [frameBody_length]
    omega
  · rw [Nat.add_comm]
    exact hb

/-- Settles O21: the frame is read as its header and changed payload, the checksum byte of the old one, and two terminator bytes that AwaitHeader skips. -/
theorem changedPayloadByteIsCorrupt : Obligations.ChangedPayloadByteIsCorrupt := by
  rintro s cmd j b hcfg hv hs hj hb _ rfl
  obtain ⟨hsilent, e, hrun, hstate⟩ :=
    endsCorrupt_changed_payload hcfg (legalPayload_of_encValid hcfg hv) hj hb hs
  rw [frameOf_set_payload _ _ hj]
  have hlen : (frameBody s.cfg (commandKind cmd) ((commandPayload cmd).set j b)).length =
      3 + (commandPayload cmd).length := by rw [frameBody_length, List.length_set]
  have hlen' : ∀ c, (frameBody s.cfg (commandKind cmd) ((commandPayload cmd).set j b) ++ [c]).length =
      4 + (commandPayload cmd).length := fun c => by rw [List.length_append, hlen, List.length_singleton]; omega
  refine ⟨?_, ?_, fun h0 h1 => ?_⟩
  · rw [List.take_left' hlen]
    exact execDec_of_silent hsilent
  · rw [List.append_cons, List.take_left' (hlen' _)]
    exact ⟨_, execDec_of_decBytes hrun, rfl, hstate⟩
  · have hskip : decBytes s.cfg [s.cfg.term0, s.cfg.term1] e = (e, []) :=
      decBytes_garbage hstate (by simp [h0, h1])
    rw [List.append_cons]
    refine ⟨_, execDec_of_decBytes (evs := [.error .frameCorrupt]) (e := e) ?_, rfl, hstate⟩
    rw [decBytes_append, hrun, hskip]
    rfl

/-! ### CRC8 as a remainder -/

/-- The sum modulo 2 of x^8 + x^2 + x + 1 shifted to the places below `n` that `q` names: the product of the polynomials (R90). -/
def crcMultiple (q : Nat → Bool) (n : Nat) : Half :=
  (List.range n).foldl (fun p i => if q i then p ^^^ ((0x107 : Half) <<< i) else p) 0

theorem crcMultiple_succ (q : Nat → Bool) (n : Nat) :
    crcMultiple q (n + 1) = if q n then crcMultiple q n ^^^ ((0x107 : Half) <<< n) else crcMultiple q n := by
  simp only [crcMultiple, List.range_succ, List.foldl_append, List.foldl_cons, List.foldl_nil]

/-- The product looks at the coefficients below `n` alone. -/
theorem crcMultiple_congr {q q' : Nat → Bool} {n : Nat} (h : ∀ i < n, q i = q' i) :
    crcMultiple q n = crcMultiple q' n := by
  induction n with
  | zero => rfl
  | succ n ih => rw [crcMultiple_succ, crcMultiple_succ, ih fun i hi => h i (by omega), h n (Nat.lt_succ_self n)]

/-- One shift is one step of the division by 0x107: bit 7 is the coefficient taken off. -/
theorem shiftLeft_one_eq_crcShift (a : Byte) :
    (a.setWidth 16 : Half) <<< 1 = (if a.getLsbD 7 then 0x107 else 0) ^^^ (crcShift a).setWidth 16 := by
  revert a
  decide +kernel

/-- `n` shifts are the remainder of `a x^n`. -/
theorem shiftLeft_eq_crcMultiple (n : Nat) (a : Byte) :
    ∃ q : Nat → Bool, (a.setWidth 16 : Half) <<< n = crcMultiple q n ^^^ (crcShifts n a).setWidth 16 := by
  induction n generalizing a with
  | zero => exact ⟨fun _ => false, by simp [crcMultiple, crcShifts]⟩
  | succ n ih =>
    obtain ⟨q, hq⟩ := ih (crcShift a)
    refine ⟨Function.update q n (a.getLsbD 7), ?_⟩
    have hbelow : crcMultiple (Function.update q n (a.getLsbD 7)) n = crcMultiple q n :=
      crcMultiple_congr fun i hi => Function.update_of_ne (Nat.ne_of_lt hi) _ _
    calc (a.setWidth 16 : Half) <<< (n + 1)
        = ((a.setWidth 16 : Half) <<< 1) <<< n := by rw [← BitVec.shiftLeft_add, Nat.add_comm]
      _ = ((if a.getLsbD 7 then 0x107 else 0 : Half) <<< n) ^^^
            (crcMultiple q n ^^^ (crcShifts n (crcShift a)).setWidth 16) := by
          rw [shiftLeft_one_eq_crcShift, BitVec.shiftLeft_xor_distrib, hq]
      _ = crcMultiple (Function.update q n (a.getLsbD 7)) (n + 1) ^^^ (crcShifts (n + 1) a).setWidth 16 := by
          rw [crcMultiple_succ, hbelow, Function.update_self, crcShifts]
          cases a.getLsbD 7 with
          | false => simp
          | true => simp only [if_true]; rw [← BitVec.xor_assoc, BitVec.xor_comm (crcMultiple q n)]

/-- Settles O59: the eight shifts are the eight steps of the division. -/
theorem crc8UpdateIsTheRemainder : Obligations.Crc8UpdateIsTheRemainder := by
  intro cfg h
  rw [ckUpdate_of_crc8 h]
  refine ⟨rfl, fun _ => rfl, fun f hf acc b => ?_, fun acc b => ?_⟩
  · obtain rfl : f = crcShift := funext hf
    rfl
  · obtain ⟨q, hq⟩ := shiftLeft_eq_crcMultiple 8 (acc ^^^ b)
    have hbits : crcMultiple (BitVec.ofFnLE fun i : Fin 8 => q i).getLsbD 8 = crcMultiple q 8 :=
      crcMultiple_congr fun i hi => by simp [hi]
    rw [← hbits] at hq
    exact ⟨BitVec.ofFnLE fun i : Fin 8 => q i, hq⟩

end Sys2Proof.Machine
end
